-- ==== Sys2Proof/Word.lean ====
section
/-! DEFINITION. The word types of the core (spec 00_scope.md R7, R12, R13). Every value is unsigned. -/

namespace Sys2Proof

/-- One message byte (R14). -/
abbrev Byte := BitVec 8

/-- A `u32` (R13): a state word, a message word, a round constant, the data of the read port. -/
abbrev Word := BitVec 32

/-- A `u64` (R13): the command word, the total length. -/
abbrev DWord := BitVec 64

end Sys2Proof
end

