-- ==== Sys2Proof/Syntax.lean ====
section
/-! DEFINITION. The instructions: one constructor per row of spec/opcode_table.json (30_encoding.md R73). Seven are
commands of the 64-bit command word, eight are reads of the 3-bit read-port address. -/

namespace Sys2Proof

/-- An instruction of the core. The byte operands of an UPDATE are its lanes 0 to N-1, in stream order
(30_encoding.md R72); the lanes at or above N are ignored and are no part of the instruction. -/
inductive Instr where
  /-- INIT (40_accumulator.md R101) -/
  | init
  /-- UPDATE with N = 0 (40_accumulator.md R102) -/
  | updateN0
  /-- UPDATE with N = 1 -/
  | updateN1 (b0 : Byte)
  /-- UPDATE with N = 2 -/
  | updateN2 (b0 b1 : Byte)
  /-- UPDATE with N = 3 -/
  | updateN3 (b0 b1 b2 : Byte)
  /-- UPDATE with N = 4 -/
  | updateN4 (b0 b1 b2 b3 : Byte)
  /-- FINAL (40_accumulator.md R104) -/
  | final
  /-- RD.STATUS, address 0 (42_readport.md R181) -/
  | rdStatus
  /-- RD.DIGEST0, address 1 (R182) -/
  | rdDigest0
  /-- RD.DIGEST1, address 2 (R183) -/
  | rdDigest1
  /-- RD.DIGEST2, address 3 (R184) -/
  | rdDigest2
  /-- RD.DIGEST3, address 4 (R185) -/
  | rdDigest3
  /-- RD.LENLO, address 5 (R186) -/
  | rdLenLo
  /-- RD.LENHI, address 6 (R187) -/
  | rdLenHi
  /-- RD 7, the reserved address (R188) -/
  | rdRsvd7
  deriving DecidableEq, Repr

end Sys2Proof
end

