-- ==== Sys2Proof/WellFormed.lean ====
section
/-! DEFINITION. What is well formed. An `Instr` carries typed bytes only, so every term of it is; what can be ill
formed is the raw 64-bit command word and the raw read address. Their legality is written here from the
match and mask lines of 30_encoding.md R73 and from opcode_table.json, apart from the decoder of R74, so that the
two can be proved to agree. -/

namespace Sys2Proof

/-- A command row of opcode_table.json: a word belongs to the row when its bits under `mask` are `value`. -/
structure CommandRow where
  mask : DWord
  value : DWord
  deriving DecidableEq, Repr

/-- The seven command rows (opcode_table.json; R73), in the table's order: INIT, UPDATE.N0 to UPDATE.N4, FINAL. -/
def commandRows : List CommandRow :=
  [⟨0x00000000FFFFFFFF#64, 0x0000000000000001#64⟩,
   ⟨0x00000000FFFFFFFF#64, 0x0000000000000002#64⟩,
   ⟨0x00000000FFFFFFFF#64, 0x0000000000000012#64⟩,
   ⟨0x00000000FFFFFFFF#64, 0x0000000000000022#64⟩,
   ⟨0x00000000FFFFFFFF#64, 0x0000000000000032#64⟩,
   ⟨0x00000000FFFFFFFF#64, 0x0000000000000042#64⟩,
   ⟨0x00000000FFFFFFFF#64, 0x0000000000000003#64⟩]

/-- The word lies in the row. -/
def CommandRow.accepts (r : CommandRow) (w : DWord) : Bool := (w &&& r.mask) == r.value

/-- A legal command word: some command row accepts it (R73, R75). -/
def legalWord (w : DWord) : Bool := commandRows.any (·.accepts w)

/-- A read-port address has 3 bits (30_encoding.md R70, R77). -/
def legalReadAddr (a : Nat) : Bool := a < 8

/-- The table row number of an instruction: commands 0 to 6, then reads 7 to 14 by address. -/
def Instr.row : Instr → Nat
  | .init => 0
  | .updateN0 => 1
  | .updateN1 _ => 2
  | .updateN2 _ _ => 3
  | .updateN3 _ _ _ => 4
  | .updateN4 _ _ _ _ => 5
  | .final => 6
  | .rdStatus => 7
  | .rdDigest0 => 8
  | .rdDigest1 => 9
  | .rdDigest2 => 10
  | .rdDigest3 => 11
  | .rdLenLo => 12
  | .rdLenHi => 13
  | .rdRsvd7 => 14

/-- The data bytes of an instruction (30_encoding.md R72): lanes 0 to N-1 of an UPDATE, in stream order. -/
def Instr.bytes : Instr → List Byte
  | .init => []
  | .updateN0 => []
  | .updateN1 b0 => [b0]
  | .updateN2 b0 b1 => [b0, b1]
  | .updateN3 b0 b1 b2 => [b0, b1, b2]
  | .updateN4 b0 b1 b2 b3 => [b0, b1, b2, b3]
  | .final => []
  | .rdStatus => []
  | .rdDigest0 => []
  | .rdDigest1 => []
  | .rdDigest2 => []
  | .rdDigest3 => []
  | .rdLenLo => []
  | .rdLenHi => []
  | .rdRsvd7 => []

/-- The instruction is an UPDATE (30_encoding.md R73, OP = 0x2). -/
def Instr.isUpdate (i : Instr) : Bool := 1 ≤ i.row && i.row ≤ 5

/-- The instruction travels on the read port, not on the command port (30_encoding.md R77, R78). -/
def Instr.isRead (i : Instr) : Bool := 7 ≤ i.row

/-- Every instruction is well formed: at most four bytes, each in 0 to 255 by its type, and bytes only on an UPDATE. -/
def Instr.wf (i : Instr) : Bool := i.bytes.length ≤ 4 && (i.isUpdate || i.bytes.isEmpty)

end Sys2Proof
end

