-- ==== Sys2Proof/Decode.lean ====
section
/-! DEFINITION. The decoder of 30_encoding.md R74, total on all 2^64 command words and on all 8 read addresses, and
the encoder written from the tables of R77 and R79. -/

namespace Sys2Proof

/-- Why a command word is ILLEGAL (30_encoding.md R75). All four have the same effect, Error(3). -/
inductive CommandReject where
  /-- RSV (bits 31:7) is not 0. -/
  | reservedBitsSet
  /-- OP is 0x0 or 0x4 to 0xF. -/
  | undefinedOp
  /-- INIT or FINAL with N not 0. -/
  | countNotZero
  /-- UPDATE with N in 5, 6, 7. -/
  | countTooLarge
  deriving DecidableEq, Repr

/-- What the host puts on the core's two ports: a 64-bit command word or a 3-bit read address
(30_encoding.md R70, R78: "a separate encoding on a separate signal"). -/
inductive PortWord where
  | cmd (w : DWord)
  | rd (addr : BitVec 3)
  deriving DecidableEq, Repr

/-- OP, bits 3:0 (R71). -/
def opField (w : DWord) : BitVec 4 := w.extractLsb' 0 4

/-- N, bits 6:4 (R71). -/
def countField (w : DWord) : BitVec 3 := w.extractLsb' 4 3

/-- RSV, bits 31:7 (R71). -/
def rsvField (w : DWord) : BitVec 25 := w.extractLsb' 7 25

/-- Lane `k`, bits 32+8k+7 : 32+8k (R72). -/
def lane (k : Nat) (w : DWord) : Byte := w.extractLsb' (32 + 8 * k) 8

/-- The UPDATE of a word whose N is `n` (R72, R74): the bytes are lanes 0 to n-1. -/
def decodeUpdate (n : Nat) (w : DWord) : Except CommandReject Instr :=
  match n with
  | 0 => .ok .updateN0
  | 1 => .ok (.updateN1 (lane 0 w))
  | 2 => .ok (.updateN2 (lane 0 w) (lane 1 w))
  | 3 => .ok (.updateN3 (lane 0 w) (lane 1 w) (lane 2 w))
  | 4 => .ok (.updateN4 (lane 0 w) (lane 1 w) (lane 2 w) (lane 3 w))
  | _ => .error .countTooLarge

/-- R74, in its order of tests. An `.error` is the ILLEGAL of that rule, with the reason's name. -/
def decodeCommand (w : DWord) : Except CommandReject Instr :=
  if rsvField w ≠ 0 then .error .reservedBitsSet
  else if opField w = 1 then (if countField w = 0 then .ok .init else .error .countNotZero)
  else if opField w = 2 then decodeUpdate (countField w).toNat w
  else if opField w = 3 then (if countField w = 0 then .ok .final else .error .countNotZero)
  else .error .undefinedOp

/-- The read at an address (R77). -/
def decodeRead (a : BitVec 3) : Instr :=
  match a.toNat with
  | 0 => .rdStatus
  | 1 => .rdDigest0
  | 2 => .rdDigest1
  | 3 => .rdDigest2
  | 4 => .rdDigest3
  | 5 => .rdLenLo
  | 6 => .rdLenHi
  | _ => .rdRsvd7

/-- The decoder over both ports. -/
def decode : PortWord → Except CommandReject Instr
  | .cmd w => decodeCommand w
  | .rd a => .ok (decodeRead a)

/-- A data byte in lane `k` of a command word (R72). -/
def inLane (k : Nat) (b : Byte) : DWord := b.setWidth 64 <<< (32 + 8 * k)

/-- The canonical encoding (R77, R79): "The assembler writes 0 into unused DATA lanes, and into DATA for INIT and
FINAL." -/
def encode : Instr → PortWord
  | .init => .cmd 0x0000000000000001#64
  | .updateN0 => .cmd 0x0000000000000002#64
  | .updateN1 b0 => .cmd (inLane 0 b0 ||| 0x12#64)
  | .updateN2 b0 b1 => .cmd (inLane 1 b1 ||| inLane 0 b0 ||| 0x22#64)
  | .updateN3 b0 b1 b2 => .cmd (inLane 2 b2 ||| inLane 1 b1 ||| inLane 0 b0 ||| 0x32#64)
  | .updateN4 b0 b1 b2 b3 => .cmd (inLane 3 b3 ||| inLane 2 b2 ||| inLane 1 b1 ||| inLane 0 b0 ||| 0x42#64)
  | .final => .cmd 0x0000000000000003#64
  | .rdStatus => .rd 0
  | .rdDigest0 => .rd 1
  | .rdDigest1 => .rd 2
  | .rdDigest2 => .rd 3
  | .rdDigest3 => .rd 4
  | .rdLenLo => .rd 5
  | .rdLenHi => .rd 6
  | .rdRsvd7 => .rd 7

/-- A word of `nbits` bits as the port it belongs to (log 13): a row of at most 8 bits is a read address, of which 3
bits exist; a longer one is a command word of 64 bits. A number that does not fit is no port word. -/
def portWordOfTable (nbits w : Nat) : Option PortWord :=
  if nbits ≤ 8 then (if legalReadAddr w then some (.rd (BitVec.ofNat 3 w)) else none)
  else if w < 2 ^ 64 then some (.cmd (BitVec.ofNat 64 w)) else none

/-- The instruction the decoder reads from an opcode-table word. -/
def decodeTableWord (nbits w : Nat) : Option Instr :=
  match portWordOfTable nbits w with
  | some p => (decode p).toOption
  | none => none

end Sys2Proof
end

