-- ==== Sys2Proof/Machine/Operands.lean ====
section
/-! DEFINITION. The mixed-width views of the core, all little-endian (20_memory.md R52 to R57), and the byte-sequence
functions of 00_scope.md R14. -/

namespace Sys2Proof.Machine

/-- `zeros(k)` (R14). -/
def zeros (k : Nat) : List Byte := List.replicate k 0

/-- `le32(b0, b1, b2, b3)` (R14): `b0` is the least significant byte. -/
def le32 (b0 b1 b2 b3 : Byte) : Word := ((b3 ++ b2) ++ (b1 ++ b0) : BitVec 32)

/-- Byte `j` of a word: bits 8j+7 : 8j. -/
def wordByte (w : Word) (j : Nat) : Byte := w.extractLsb' (8 * j) 8

/-- `le32bytes(w)` (R14). -/
def le32bytes (w : Word) : List Byte := [wordByte w 0, wordByte w 1, wordByte w 2, wordByte w 3]

/-- Byte `j` of a 64-bit value: bits 8j+7 : 8j. -/
def dwordByte (v : DWord) (j : Nat) : Byte := v.extractLsb' (8 * j) 8

/-- `le64bytes(v)` (R14, R53). -/
def le64bytes (v : DWord) : List Byte :=
  [dwordByte v 0, dwordByte v 1, dwordByte v 2, dwordByte v 3,
   dwordByte v 4, dwordByte v 5, dwordByte v 6, dwordByte v 7]

/-- Message word `j` of a block (R52, R141). A byte beyond the block's end reads as 0, which no block of 64 bytes has
(log 11). -/
def messageWord (blk : List Byte) (j : Nat) : Word :=
  le32 (blk.getD (4 * j) 0) (blk.getD (4 * j + 1) 0) (blk.getD (4 * j + 2) 0) (blk.getD (4 * j + 3) 0)

/-- The sixteen message words of a block (R52, R141). -/
def messageWords (blk : List Byte) : List Word := (List.range 16).map (messageWord blk)

/-- `LEN[31:0]` (R56). -/
def lowWord (v : DWord) : Word := v.extractLsb' 0 32

/-- `LEN[63:32]` (R56). -/
def highWord (v : DWord) : Word := v.extractLsb' 32 32

end Sys2Proof.Machine
end

