-- ==== Sys2Proof/Machine/Rom.lean ====
section
/-! DEFINITION. The constants of the core: the IV (10_state.md R21), the shift table, the message-index schedule and
the round constant ROM (41_compression.md R144 to R146). The spec marks their values "from general knowledge" and
checks them against the document's digests; they are read-only and no command writes them (10_state.md R29). -/

namespace Sys2Proof.Machine

/-- The four words of the state register, STATE[0] to STATE[3] = A, B, C, D (10_state.md R20). -/
structure HashWords where
  a : Word
  b : Word
  c : Word
  d : Word
  deriving DecidableEq, Repr

/-- The IV (10_state.md R21). -/
def iv : HashWords := ⟨0x67452301#32, 0xefcdab89#32, 0x98badcfe#32, 0x10325476#32⟩

/-- The table S (41_compression.md R145): four amounts per group. -/
def shiftTable : List (List Nat) := [[7, 12, 17, 22], [5, 9, 14, 20], [4, 11, 16, 23], [6, 10, 15, 21]]

/-- `SHIFT(i) = S[i div 16][i mod 4]` (R145). -/
def shift (i : Nat) : Nat := (shiftTable.getD (i / 16) []).getD (i % 4) 0

/-- `MIDX(i)` (R144). -/
def midx (i : Nat) : Nat :=
  if i < 16 then i
  else if i < 32 then (5 * i + 1) % 16
  else if i < 48 then (3 * i + 5) % 16
  else (7 * i) % 16

/-- ROM_T, rounds 0 to 15 (R146). -/
def romGroup0 : List Word :=
  [0xd76aa478#32, 0xe8c7b756#32, 0x242070db#32, 0xc1bdceee#32, 0xf57c0faf#32, 0x4787c62a#32, 0xa8304613#32, 0xfd469501#32,
   0x698098d8#32, 0x8b44f7af#32, 0xffff5bb1#32, 0x895cd7be#32, 0x6b901122#32, 0xfd987193#32, 0xa679438e#32, 0x49b40821#32]

/-- ROM_T, rounds 16 to 31 (R146). -/
def romGroup1 : List Word :=
  [0xf61e2562#32, 0xc040b340#32, 0x265e5a51#32, 0xe9b6c7aa#32, 0xd62f105d#32, 0x02441453#32, 0xd8a1e681#32, 0xe7d3fbc8#32,
   0x21e1cde6#32, 0xc33707d6#32, 0xf4d50d87#32, 0x455a14ed#32, 0xa9e3e905#32, 0xfcefa3f8#32, 0x676f02d9#32, 0x8d2a4c8a#32]

/-- ROM_T, rounds 32 to 47 (R146). -/
def romGroup2 : List Word :=
  [0xfffa3942#32, 0x8771f681#32, 0x6d9d6122#32, 0xfde5380c#32, 0xa4beea44#32, 0x4bdecfa9#32, 0xf6bb4b60#32, 0xbebfbc70#32,
   0x289b7ec6#32, 0xeaa127fa#32, 0xd4ef3085#32, 0x04881d05#32, 0xd9d4d039#32, 0xe6db99e5#32, 0x1fa27cf8#32, 0xc4ac5665#32]

/-- ROM_T, rounds 48 to 63 (R146). -/
def romGroup3 : List Word :=
  [0xf4292244#32, 0x432aff97#32, 0xab9423a7#32, 0xfc93a039#32, 0x655b59c3#32, 0x8f0ccc92#32, 0xffeff47d#32, 0x85845dd1#32,
   0x6fa87e4f#32, 0xfe2ce6e0#32, 0xa3014314#32, 0x4e0811a1#32, 0xf7537e82#32, 0xbd3af235#32, 0x2ad7d2bb#32, 0xeb86d391#32]

/-- The 64 words of ROM_T (R146). -/
def romTable : List Word := romGroup0 ++ romGroup1 ++ romGroup2 ++ romGroup3

/-- `ROM_T[i]`. A round index is below 64 (R146); beyond the table the function gives 0, which no round reads
(log 11). -/
def romT (i : Nat) : Word := romTable.getD i 0

end Sys2Proof.Machine
end

