-- ==== Sys2Proof/Machine/Compression.lean ====
section
/-! DEFINITION. The compression function COMPRESS (41_compression.md R140 to R151) and the clocked datapath that may
carry it out (R28, R152). -/

namespace Sys2Proof.Machine

/-- `rotl32(x, s)` (00_scope.md R13). -/
def rotl32 (x : Word) (s : Nat) : Word := (x <<< s) ||| (x >>> (32 - s))

/-- F (R142): per bit, if x then y else z. -/
def funF (x y z : Word) : Word := (x &&& y) ||| (~~~x &&& z)

/-- G (R142): per bit, if z then x else y (90_conflicts.md C1: not a majority). -/
def funG (x y z : Word) : Word := (x &&& z) ||| (y &&& ~~~z)

/-- H (R142): parity. -/
def funH (x y z : Word) : Word := x ^^^ y ^^^ z

/-- I (R142): y XOR (x OR NOT z). -/
def funI (x y z : Word) : Word := y ^^^ (x ||| ~~~z)

/-- `FN(i)` (R143): the function of group i div 16. -/
def fn (i : Nat) (x y z : Word) : Word :=
  match i / 16 with
  | 0 => funF x y z
  | 1 => funG x y z
  | 2 => funH x y z
  | _ => funI x y z

/-- The working registers a, b, c, d (10_state.md R28). -/
structure WorkRegs where
  a : Word
  b : Word
  c : Word
  d : Word
  deriving DecidableEq, Repr

/-- `f` of round i: the group's function on (b, c, d), in that order (R143). -/
def roundF (i : Nat) (w : WorkRegs) : Word := fn i w.b w.c w.d

/-- `sum` of round i (R147). -/
def roundSum (i : Nat) (w : WorkRegs) (m : List Word) : Word := w.a + roundF i w + romT i + m.getD (midx i) 0

/-- One round (R147; 90_conflicts.md C2: the rotated sum is added to b). -/
def round (i : Nat) (w : WorkRegs) (m : List Word) : WorkRegs :=
  ⟨w.d, w.b + rotl32 (roundSum i w m) (shift i), w.b, w.c⟩

/-- `k` rounds in order, beginning with round `i`. -/
def rounds (m : List Word) : Nat → Nat → WorkRegs → WorkRegs
  | _, 0, w => w
  | i, k + 1, w => rounds m (i + 1) k (round i w m)

/-- The load of R148. -/
def loadWork (st : HashWords) : WorkRegs := ⟨st.a, st.b, st.c, st.d⟩

/-- The feed-forward of R149. -/
def feedForward (st : HashWords) (w : WorkRegs) : HashWords := ⟨st.a + w.a, st.b + w.b, st.c + w.c, st.d + w.d⟩

/-- `COMPRESS(st, blk)` (R150). -/
def compress (st : HashWords) (blk : List Byte) : HashWords :=
  feedForward st (rounds (messageWords blk) 0 64 (loadWork st))

/-- The compression datapath while one block is being compressed: working registers and round counter
(10_state.md R28). "The round counter takes the values 0 to 63": it is the number of the next round. They are not
architectural, and no field of State holds them (log 9). -/
structure Datapath where
  work : WorkRegs
  counter : Fin 64
  deriving DecidableEq, Repr

/-- Working registers and counter "exist only while one block is being compressed" and "are discarded after the
feed-forward" (R28): a busy datapath has them, one that is done has the result alone. -/
inductive DatapathPhase where
  | busy (p : Datapath)
  | done (result : HashWords)
  deriving DecidableEq, Repr

/-- The datapath at the start of a block: the working registers loaded from the state register, round 0 next (R28, R148). -/
def Datapath.start (st : HashWords) : Datapath := ⟨loadWork st, 0⟩

/-- One clock of a datapath that performs `k` rounds per clock (R152) on the state register `st`. The clock that performs
round 63 also performs the feed-forward of R149 and discards the working registers and the counter; that both fall in
one clock is the model's own (DESIGN CHOICE, log 14). -/
def Datapath.clock (k : Nat) (st : HashWords) (m : List Word) (p : Datapath) : DatapathPhase :=
  if h : p.counter.val + k < 64 then .busy ⟨rounds m p.counter.val k p.work, ⟨p.counter.val + k, h⟩⟩
  else .done (feedForward st (rounds m p.counter.val (64 - p.counter.val) p.work))

/-- One clock in either phase; a datapath that is done keeps its result. -/
def DatapathPhase.clock (k : Nat) (st : HashWords) (m : List Word) : DatapathPhase → DatapathPhase
  | .busy p => p.clock k st m
  | .done r => .done r

/-- `n` clocks. -/
def DatapathPhase.clocks (k : Nat) (st : HashWords) (m : List Word) : Nat → DatapathPhase → DatapathPhase
  | 0, d => d
  | n + 1, d => DatapathPhase.clocks k st m n (d.clock k st m)

end Sys2Proof.Machine
end

