-- ==== Sys2Proof/Config.lean ====
section
/-! DEFINITION. What one implementation fixes and the spec leaves open: the free value of `rd_data` while
`cmd_ready = 0`, and the timing parameters of 00_scope.md R8. No definition of the step reads a value of them. -/

namespace Sys2Proof

/-- The `k`-th fresh draw of `rd_data` in a cycle with `cmd_ready = 0` (70_reset_and_hazards.md R235:
"`rd_data` is unspecified"; 93_implementation_defined.md: "a fresh free draw per sample"). It has no body, so
nothing can be proved about its value. Log 5. -/
opaque Config.freeRdData : Nat → Word

/-- The open parameters of 00_scope.md R8. They are arguments of the statements that speak of time, never of
the step: the step takes each cycle's `rise` from the schedule instead (log 3). -/
structure Config.Timing where
  /-- `CYCLES_INIT` -/
  cyclesInit : Nat
  /-- `CYCLES_UPDATE(p, n)`: pending count `p`, byte count `n` -/
  cyclesUpdate : Nat → Nat → Nat
  /-- `CYCLES_FINAL(p)` -/
  cyclesFinal : Nat → Nat
  /-- `RESET_CYCLES` -/
  resetCycles : Nat
  /-- `ROUNDS_PER_CYCLE` -/
  roundsPerCycle : Nat

/-- Each command takes at least one cycle (70_reset_and_hazards.md R233, R238; 92_eei_decisions.md D20), and the
datapath performs at least one round per clock (00_scope.md R8); `RESET_CYCLES` may be 0. -/
def Config.Timing.Legal (T : Config.Timing) : Prop :=
  1 ≤ T.cyclesInit ∧ (∀ p n, 1 ≤ T.cyclesUpdate p n) ∧ (∀ p, 1 ≤ T.cyclesFinal p) ∧ 1 ≤ T.roundsPerCycle

end Sys2Proof
end

