-- ==== Sys2Proof/Machine/State.lean ====
section
/-! DEFINITION. The state of one core: the architectural tuple of 10_state.md R31, the handshake and read port of
30_encoding.md R70, and the clock cycles to come as the host drives them. Plain data. -/

namespace Sys2Proof.Machine

/-- The values of ECODE (10_state.md R27, 60_exceptions.md R201). -/
inductive ErrorCode where
  /-- 0: no error since the last INIT or reset -/
  | none
  /-- 1: UPDATE accepted while DONE = 1 and ERR = 0 -/
  | updateAfterFinal
  /-- 2: FINAL accepted while DONE = 1 and ERR = 0 -/
  | finalAfterFinal
  /-- 3: illegal command word accepted while ERR = 0 -/
  | illegalCmd
  deriving DecidableEq, Repr

/-- The complete architectural state of one core (10_state.md R31). -/
structure Arch where
  /-- STATE[0] to STATE[3] (R20) -/
  regs : HashWords
  /-- PEND, earliest byte first (R22, R23); PCOUNT is its length -/
  pend : List Byte
  /-- LEN, in bits, modulo 2^64 (R24) -/
  len : DWord
  /-- DONE (R25): false is phase ACTIVE -/
  done : Bool
  /-- ERR (R26) -/
  err : Bool
  /-- ECODE (R27) -/
  ecode : ErrorCode
  deriving DecidableEq, Repr

/-- The reset values of 10_state.md R32, which INIT loads too (40_accumulator.md R101). -/
def Arch.reset : Arch := ⟨iv, [], 0, false, false, .none⟩

/-- One clock cycle as the outside world makes it (30_encoding.md R70; log 2). -/
structure Cycle where
  /-- `rst` -/
  rst : Bool
  /-- `cmd_valid` with `cmd_word`; `none` is `cmd_valid = 0`, where `cmd_word` is ignored (70_reset_and_hazards.md R233) -/
  cmd : Option DWord
  /-- the read of this cycle: the host samples `rd_data` at this `rd_addr`; `none` is a cycle it does not sample in -/
  rd : Option (BitVec 3)
  /-- the open timing of 00_scope.md R8: `cmd_ready`, where it is 0, is 1 again after this cycle (log 3) -/
  rise : Bool
  deriving DecidableEq, Repr

/-- A cycle in which the host does nothing and the core may become ready. -/
def Cycle.idle : Cycle := ⟨false, none, none, true⟩

/-- The machine. -/
structure State where
  /-- the architectural tuple (10_state.md R31) -/
  arch : Arch
  /-- `cmd_ready` (70_reset_and_hazards.md R233) -/
  cmdReady : Bool
  /-- the model's own: what the host's last read sampled on `rd_data` (log 6) -/
  rdData : Word
  /-- the model's own: how many free values have been drawn (log 5) -/
  draws : Nat
  /-- the model's own: the cycles to come; after the last, every cycle is `Cycle.idle` (log 2) -/
  schedule : List Cycle
  deriving DecidableEq, Repr

/-- The machine after reset: the values of 10_state.md R32, "once `cmd_ready = 1`" (70_reset_and_hazards.md R239).
`cmdReady`, `rdData`, `draws` and `schedule` are the model's choice (logs 7, 6, 5, 2). -/
def State.reset : State := ⟨Arch.reset, true, 0, 0, []⟩

/-- Nothing faults: "every accepted word completes and every state has a defined next state for every word"
(93_implementation_defined.md section 2). The core's own errors are next states (60_exceptions.md R203). Log 12. -/
inductive Fault : Type where
  deriving DecidableEq, Repr

/-- Why a step has no meaning. -/
inductive Refusal where
  /-- Raised by an arm of Dispatch.lean whose instruction has no meaning yet; none is left, so nothing raises it.
  Safe: a refused step proves nothing. -/
  | notModelled (mnemonic : String)
  deriving DecidableEq, Repr

end Sys2Proof.Machine
end

