-- ==== Sys2Proof/Machine/Flags.lean ====
section
/-! DEFINITION. The flags DONE, ERR and ECODE (10_state.md R25 to R27) and the STATUS register that shows them
(42_readport.md R181). -/

namespace Sys2Proof.Machine

/-- The two bits of ECODE (60_exceptions.md R201). -/
def ErrorCode.bits : ErrorCode → BitVec 2
  | .none => 0
  | .updateAfterFinal => 1
  | .finalAfterFinal => 2
  | .illegalCmd => 3

/-- PCOUNT, the 6-bit count of pending bytes (10_state.md R23; log 10 for a length of 64 or more, never reached). -/
def Arch.pcount (a : Arch) : BitVec 6 := BitVec.ofNat 6 a.pend.length

/-- STATUS = 22'b0, PCOUNT, ECODE, ERR, DONE (30_encoding.md R77, 42_readport.md R181). -/
def Arch.status (a : Arch) : Word :=
  (((0#22 ++ a.pcount) ++ a.ecode.bits) ++ BitVec.ofBool a.err) ++ BitVec.ofBool a.done

end Sys2Proof.Machine
end

