-- ==== Sys2Proof/Machine/Ops.lean ====
section
/-! DEFINITION. The shared operations: the error action and the recovery from it (60_exceptions.md), the block
accumulator and the padding engine (40_accumulator.md), sampling the read port (42_readport.md, 70_reset_and_hazards.md
R235). Each instruction's meaning is a line over these. -/

namespace Sys2Proof.Machine

/-! ### Updates of one part of the state -/

def State.withArch (s : State) (a : Arch) : State := { s with arch := a }
def State.withReady (s : State) (r : Bool) : State := { s with cmdReady := r }
def State.withRdData (s : State) (v : Word) : State := { s with rdData := v }
def State.withSchedule (s : State) (cs : List Cycle) : State := { s with schedule := cs }

/-- Samples one fresh free value onto `rd_data` (70_reset_and_hazards.md R235; log 5). -/
def State.drawRdData (s : State) : State := { s with rdData := Config.freeRdData s.draws, draws := s.draws + 1 }

/-- `STATE <- st`, the whole state register (10_state.md R20). -/
def Arch.withRegs (a : Arch) (st : HashWords) : Arch := { a with regs := st }

/-- One outcome after another: a fault or a refusal ends the sequence. -/
def andThen (o : Host.Outcome State Fault Refusal) (k : State → Host.Outcome State Fault Refusal) :
    Host.Outcome State Fault Refusal :=
  match o with
  | .next s => k s
  | .fault r => .fault r
  | .refused r => .refused r

/-! ### Errors -/

/-- The error action `raise Error(code)` (60_exceptions.md R203): the first error sets ERR and ECODE, a later one
changes nothing (R204, R208); no other state changes. -/
def Arch.raise (code : ErrorCode) (a : Arch) : Arch :=
  if a.err then a else { a with err := true, ecode := code }

/-- Recovery is a new hash (60_exceptions.md R207): INIT and `rst` load the reset state (10_state.md R32). -/
def Arch.restart (_ : Arch) : Arch := Arch.reset

/-- The state checks of an UPDATE or FINAL (40_accumulator.md R100, 60_exceptions.md R205): poisoned, then the
command's invalid-state error, then its effect. -/
def Arch.guarded (code : ErrorCode) (effect : Arch → Arch) (a : Arch) : Arch :=
  if a.err then a
  else if a.done then a.raise code
  else effect a

/-- The effect of an ILLEGAL command word (30_encoding.md R75, 60_exceptions.md R202). -/
def State.illegalCommand (s : State) : State := s.withArch (s.arch.raise .illegalCmd)

/-! ### Block accumulator -/

/-- The pending bytes after one more; a completed block of 64 is compressed and removed (40_accumulator.md R103). -/
def Arch.push (x : Byte) (a : Arch) : Arch :=
  if a.pend.length + 1 = 64 then { a with regs := compress a.regs (a.pend ++ [x]), pend := [] }
  else { a with pend := a.pend ++ [x] }

/-- `ABSORB(x)` (40_accumulator.md R103): LEN counts 8 bits, modulo 2^64, and the byte is pending. -/
def Arch.absorb (a : Arch) (x : Byte) : Arch := { a with len := a.len + 8 }.push x

/-- The bytes of an UPDATE, lane 0 first (40_accumulator.md R102). -/
def Arch.absorbAll (bs : List Byte) (a : Arch) : Arch := bs.foldl Arch.absorb a

/-- An UPDATE command with its state checks (40_accumulator.md R100, R102). -/
def State.update (bs : List Byte) (s : State) : State :=
  s.withArch (s.arch.guarded .updateAfterFinal (Arch.absorbAll bs))

/-! ### Padding engine -/

/-- The number of zero bytes after 0x80 (40_accumulator.md R105): `(55 - p) mod 64`. -/
def padZeros (p : Nat) : Nat := (119 - p % 64) % 64

/-- `PAD(pb, L)` (40_accumulator.md R105). -/
def pad (pb : List Byte) (l : DWord) : List Byte :=
  pb ++ [0x80#8] ++ zeros (padZeros pb.length) ++ le64bytes l

/-- Compresses `n` consecutive 64-byte blocks of a byte sequence, in order (40_accumulator.md R104). -/
def compressBlocks : Nat → HashWords → List Byte → HashWords
  | 0, st, _ => st
  | n + 1, st, bs => compressBlocks n (compress st (bs.take 64)) (bs.drop 64)

/-- The effect of FINAL (40_accumulator.md R104): the padded tail is compressed block by block, PEND is emptied, DONE is
set, LEN keeps the snapshot. -/
def Arch.finish (a : Arch) : Arch :=
  { a with
    regs := compressBlocks ((pad a.pend a.len).length / 64) a.regs (pad a.pend a.len),
    pend := [],
    done := true }

/-! ### Read port -/

/-- A read that finds `v` at its address: `rd_data` is `v` while `cmd_ready = 1` and a fresh free value while it is 0
(42_readport.md R180, 70_reset_and_hazards.md R235). Nothing else changes. -/
def State.sample (v : Word) (s : State) : State := if s.cmdReady then s.withRdData v else s.drawRdData

/-- A digest register (42_readport.md R182 to R185): the word while DONE = 1, else 0. -/
def Arch.digestWord (a : Arch) (w : Word) : Word := if a.done then w else 0

/-- The 16 digest bytes (20_memory.md R54, 42_readport.md R190). -/
def digestBytes (st : HashWords) : List Byte := le32bytes st.a ++ le32bytes st.b ++ le32bytes st.c ++ le32bytes st.d

end Sys2Proof.Machine
end

