-- ==== Sys2Proof/Machine/Accumulator.lean ====
section
/-! DEFINITION. The meanings of the commands INIT, UPDATE.N0 to UPDATE.N4 and FINAL (40_accumulator.md R100 to R106).
Every one answers a next state in every state. -/

namespace Sys2Proof.Machine

/-- INIT (R101): taken whatever ERR and DONE are. -/
def execInit (s : State) : Host.Outcome State Fault Refusal := .next (s.withArch s.arch.restart)

/-- UPDATE, N = 0 (R102): no byte, but the same state checks. -/
def execUpdateN0 (s : State) : Host.Outcome State Fault Refusal := .next (s.update [])

/-- UPDATE, N = 1 (R102). -/
def execUpdateN1 (b0 : Byte) (s : State) : Host.Outcome State Fault Refusal := .next (s.update [b0])

/-- UPDATE, N = 2 (R102). -/
def execUpdateN2 (b0 b1 : Byte) (s : State) : Host.Outcome State Fault Refusal := .next (s.update [b0, b1])

/-- UPDATE, N = 3 (R102). -/
def execUpdateN3 (b0 b1 b2 : Byte) (s : State) : Host.Outcome State Fault Refusal := .next (s.update [b0, b1, b2])

/-- UPDATE, N = 4 (R102). -/
def execUpdateN4 (b0 b1 b2 b3 : Byte) (s : State) : Host.Outcome State Fault Refusal :=
  .next (s.update [b0, b1, b2, b3])

/-- FINAL (R104), with the state checks of R100. -/
def execFinal (s : State) : Host.Outcome State Fault Refusal :=
  .next (s.withArch (s.arch.guarded .finalAfterFinal Arch.finish))

end Sys2Proof.Machine
end

