-- ==== Sys2Proof/Machine/ReadPort.lean ====
section
/-! DEFINITION. The meanings of the eight reads (42_readport.md R180 to R188). Every one answers a next state in every
state, with `rd_data` sampled and nothing else changed. -/

namespace Sys2Proof.Machine

/-- RD.STATUS (R181). -/
def execRdStatus (s : State) : Host.Outcome State Fault Refusal := .next (s.sample s.arch.status)

/-- RD.DIGEST0 (R182). -/
def execRdDigest0 (s : State) : Host.Outcome State Fault Refusal := .next (s.sample (s.arch.digestWord s.arch.regs.a))

/-- RD.DIGEST1 (R183). -/
def execRdDigest1 (s : State) : Host.Outcome State Fault Refusal := .next (s.sample (s.arch.digestWord s.arch.regs.b))

/-- RD.DIGEST2 (R184). -/
def execRdDigest2 (s : State) : Host.Outcome State Fault Refusal := .next (s.sample (s.arch.digestWord s.arch.regs.c))

/-- RD.DIGEST3 (R185). -/
def execRdDigest3 (s : State) : Host.Outcome State Fault Refusal := .next (s.sample (s.arch.digestWord s.arch.regs.d))

/-- RD.LENLO (R186). -/
def execRdLenLo (s : State) : Host.Outcome State Fault Refusal := .next (s.sample (lowWord s.arch.len))

/-- RD.LENHI (R187). -/
def execRdLenHi (s : State) : Host.Outcome State Fault Refusal := .next (s.sample (highWord s.arch.len))

/-- RD 7, the reserved address (R188). -/
def execRdRsvd7 (s : State) : Host.Outcome State Fault Refusal := .next (s.sample 0)

end Sys2Proof.Machine
end

