-- ==== Sys2Proof/Machine/Dispatch.lean ====
section
/-! DEFINITION. One arm per instruction. -/

namespace Sys2Proof.Machine

def exec (i : Instr) (s : State) : Host.Outcome State Fault Refusal :=
  match i with
  | .init => Sys2Proof.Machine.execInit s
  | .updateN0 => Sys2Proof.Machine.execUpdateN0 s
  | .updateN1 b0 => Sys2Proof.Machine.execUpdateN1 b0 s
  | .updateN2 b0 b1 => Sys2Proof.Machine.execUpdateN2 b0 b1 s
  | .updateN3 b0 b1 b2 => Sys2Proof.Machine.execUpdateN3 b0 b1 b2 s
  | .updateN4 b0 b1 b2 b3 => Sys2Proof.Machine.execUpdateN4 b0 b1 b2 b3 s
  | .final => Sys2Proof.Machine.execFinal s
  | .rdStatus => Sys2Proof.Machine.execRdStatus s
  | .rdDigest0 => Sys2Proof.Machine.execRdDigest0 s
  | .rdDigest1 => Sys2Proof.Machine.execRdDigest1 s
  | .rdDigest2 => Sys2Proof.Machine.execRdDigest2 s
  | .rdDigest3 => Sys2Proof.Machine.execRdDigest3 s
  | .rdLenLo => Sys2Proof.Machine.execRdLenLo s
  | .rdLenHi => Sys2Proof.Machine.execRdLenHi s
  | .rdRsvd7 => Sys2Proof.Machine.execRdRsvd7 s

end Sys2Proof.Machine
end

