-- ==== Sys2Proof/Machine/Handshake.lean ====
section
/-! DEFINITION. One clock cycle: reset, the command handshake and the read port (70_reset_and_hazards.md R230 to R235).
The effect of an accepted command is applied at the accepting edge and `cmd_ready` then stays 0 until the open timing
lets it rise; in between no read can see the state (log 1). -/

namespace Sys2Proof.Machine

/-- `EXEC(w)` of an accepted command word (40_accumulator.md R100). -/
def execWord (w : DWord) (s : State) : Host.Outcome State Fault Refusal :=
  match decodeCommand w with
  | .ok i => exec i s
  | .error _ => .next s.illegalCommand

/-- The pins as the cycle begins: `cmd_ready` is 0 while `rst = 1` (70_reset_and_hazards.md R230). -/
def State.begin (c : Cycle) (s : State) : State := s.withReady (s.cmdReady && !c.rst)

/-- The read of the cycle, if there is one: it sees the state left by every command accepted before this cycle (R235). -/
def readStage (c : Cycle) (s : State) : Host.Outcome State Fault Refusal :=
  match c.rd with
  | none => .next s
  | some a => exec (decodeRead a) s

/-- A rising edge with `rst = 1` (R230): the reset values, whatever was in progress, and no command accepted. -/
def State.resetEdge (c : Cycle) (s : State) : State := (s.withArch s.arch.restart).withReady c.rise

/-- The rising edge that ends the cycle. With `rst = 0`, a command is accepted if and only if `cmd_valid = 1` and
`cmd_ready = 1` (R233); `cmd_ready` is then 0 in the next cycle. While `cmd_ready = 0` the word is ignored. -/
def edgeStage (c : Cycle) (s : State) : Host.Outcome State Fault Refusal :=
  if c.rst then .next (s.resetEdge c)
  else if s.cmdReady then
    match c.cmd with
    | some w => andThen (execWord w s) (fun t => .next (t.withReady false))
    | none => .next s
  else .next (s.withReady c.rise)

/-- One whole clock cycle. -/
def runCycle (c : Cycle) (s : State) : Host.Outcome State Fault Refusal :=
  andThen (readStage c (s.begin c)) (edgeStage c)

/-- The cycle that comes next: the head of the schedule, or an idle cycle after its end (log 2). -/
def State.nextCycle (s : State) : Cycle := s.schedule.headD Cycle.idle

/-- The cycle in which the host presents a port word (log 13). -/
def cycleOf : PortWord → Cycle
  | .cmd w => ⟨false, some w, none, false⟩
  | .rd a => ⟨false, none, some a, false⟩

end Sys2Proof.Machine
end

