-- ==== Sys2Proof/Machine/Step.lean ====
section
/-! DEFINITION. The step: one clock cycle of the schedule (Machine/Handshake.lean). -/

namespace Sys2Proof.Machine

/-- One clock cycle. -/
def step (s : State) : Host.Outcome State Fault Refusal := runCycle s.nextCycle (s.withSchedule s.schedule.tail)

/-- The state with one instruction placed where the step takes its next: the next cycle presents the word on its port,
with `cmd_ready = 1`, so that the command is accepted or the read is valid (log 13). A number that is no port word
leaves the state as it is. -/
def State.withFetchWord (s : State) (nbits w : Nat) : State :=
  match portWordOfTable nbits w with
  | some p => (s.withReady true).withSchedule (cycleOf p :: s.schedule)
  | none => s

end Sys2Proof.Machine
end

