-- ==== Sys2Proof/Machine/Assembler.lean ====
section
/-! DEFINITION. The host's assembler syntax and pseudo-instructions (30_encoding.md R79, R80), and the host-side
hexadecimal rendering of a digest (42_readport.md R189). None of it is part of the core; it turns text into the port
words a host presents. A text is a list of characters. What R79 and R80 leave open of the notation is the model's own:
numbers (log 15), quotes (log 16), blanks, empty lines and the case of register names (log 17). -/

namespace Sys2Proof.Machine

/-- A source line (R79) or a pseudo-instruction (R80); operands as written. -/
inductive AsmOp where
  | init
  | update (bs : List Nat)
  | final
  /-- `.cmd v`: a raw word, legal or not -/
  | raw (v : Nat)
  | rd (addr : Nat)
  | push (bs : List Nat)
  /-- `HASH "text"`, the bytes of the text -/
  | hash (bs : List Nat)
  | rdDigest
  deriving DecidableEq, Repr

/-- "A byte operand is a number 0 to 255" (R79). -/
def legalBytes (bs : List Nat) : Bool := bs.all (· < 256)

/-- A line the assembler accepts: at most four byte operands on an UPDATE, bytes in range, a raw word of 64 bits, a
read address of 3 bits (R79). -/
def AsmOp.wf : AsmOp → Bool
  | .init => true
  | .update bs => bs.length ≤ 4 && legalBytes bs
  | .final => true
  | .raw v => v < 2 ^ 64
  | .rd a => legalReadAddr a
  | .push bs => legalBytes bs
  | .hash bs => legalBytes bs
  | .rdDigest => true

/-- UPDATE commands of four bytes each, in order, and a last one with the remaining 1 to 3 (R80). -/
def updatesOf : List Byte → List Instr
  | b0 :: b1 :: b2 :: b3 :: bs => .updateN4 b0 b1 b2 b3 :: updatesOf bs
  | [b0, b1, b2] => [.updateN3 b0 b1 b2]
  | [b0, b1] => [.updateN2 b0 b1]
  | [b0] => [.updateN1 b0]
  | [] => []

/-- PUSH (R80): "When k = 0 it expands to the single command `UPDATE` (N = 0)". -/
def pushInstrs : List Byte → List Instr
  | [] => [.updateN0]
  | b :: bs => updatesOf (b :: bs)

/-- HASH (R80). -/
def hashInstrs (bs : List Byte) : List Instr := .init :: (pushInstrs bs ++ [.final])

/-- RDDIGEST (R80). -/
def rdDigestInstrs : List Instr := [.rdDigest0, .rdDigest1, .rdDigest2, .rdDigest3]

def bytesOfNats (bs : List Nat) : List Byte := bs.map (BitVec.ofNat 8)

/-- The port words of a line; `none` where the assembler refuses it. -/
def AsmOp.expand (o : AsmOp) : Option (List PortWord) :=
  if o.wf then
    match o with
    | .init => some [encode .init]
    | .update [] => some [encode .updateN0]
    | .update (b :: bs) => some ((updatesOf (bytesOfNats (b :: bs))).map encode)
    | .final => some [encode .final]
    | .raw v => some [.cmd (BitVec.ofNat 64 v)]
    | .rd a => some [.rd (BitVec.ofNat 3 a)]
    | .push bs => some ((pushInstrs (bytesOfNats bs)).map encode)
    | .hash bs => some ((hashInstrs (bytesOfNats bs)).map encode)
    | .rdDigest => some (rdDigestInstrs.map encode)
  else none

/-! ### Reading a line of text (R79) -/

inductive Token where
  | word (cs : List Char)
  | num (v : Nat)
  | str (bs : List Nat)
  | comma
  deriving DecidableEq, Repr

/-- The value of a digit character, for digits 0 to 9 and a to f in either case (the case is the model's own, log 15). -/
def digitValue (c : Char) : Option Nat :=
  if 48 ≤ c.toNat ∧ c.toNat ≤ 57 then some (c.toNat - 48)
  else if 97 ≤ c.toNat ∧ c.toNat ≤ 102 then some (c.toNat - 87)
  else if 65 ≤ c.toNat ∧ c.toNat ≤ 70 then some (c.toNat - 55)
  else none

/-- Mnemonics are case-insensitive (R79). -/
def upperChar (c : Char) : Char := if 97 ≤ c.toNat ∧ c.toNat ≤ 122 then Char.ofNat (c.toNat - 32) else c

/-- A character that may stand in a mnemonic or a number. -/
def wordChar (c : Char) : Bool :=
  (48 ≤ c.toNat && c.toNat ≤ 57) || (65 ≤ c.toNat && c.toNat ≤ 90) || (97 ≤ c.toNat && c.toNat ≤ 122) || c.toNat == 46

def digitsValue (base : Nat) : List Char → Nat → Option Nat
  | [], acc => some acc
  | c :: cs, acc =>
    match digitValue c with
    | some d => if d < base then digitsValue base cs (acc * base + d) else none
    | none => none

/-- A run of word characters: a number (decimal, or hexadecimal after `0x`, R79) where it begins with a digit, else a
word. That `0X` begins a hexadecimal number too is the model's own (DESIGN CHOICE, log 15). -/
def tokenOfRun : List Char → Option Token
  | '0' :: 'x' :: c :: cs => (digitsValue 16 (c :: cs) 0).map .num
  | '0' :: 'X' :: c :: cs => (digitsValue 16 (c :: cs) 0).map .num
  | c :: cs =>
    if 48 ≤ c.toNat ∧ c.toNat ≤ 57 then (digitsValue 10 (c :: cs) 0).map .num
    else some (.word ((c :: cs).map upperChar))
  | [] => none

/-- The ASCII code of a character (R79). -/
def asciiCode (c : Char) : Option Nat := if c.toNat < 128 then some c.toNat else none

/-- The tokens of a line, up to a `;` (R79). The fuel is the length of the line plus one. The spec does not say how a quote
is written inside quotes. The model has no escape: the first double quote after the opening one ends the text, and a
character literal is one character, of any kind, between two single quotes (DESIGN CHOICE, log 16). Blanks and tabs
separate tokens and are otherwise ignored (log 17). -/
def tokens : Nat → List Char → Option (List Token)
  | 0, _ => none
  | _, [] => some []
  | fuel + 1, c :: cs =>
    if c.toNat = 32 ∨ c.toNat = 9 then tokens fuel cs
    else if c.toNat = 59 then some []
    else if c.toNat = 44 then (tokens fuel cs).map (.comma :: ·)
    else if c.toNat = 39 then
      match cs with
      | x :: q :: rest =>
        if q.toNat = 39 then
          match asciiCode x with
          | some v => (tokens fuel rest).map (.num v :: ·)
          | none => none
        else none
      | _ => none
    else if c.toNat = 34 then
      match cs.dropWhile (·.toNat != 34), (cs.takeWhile (·.toNat != 34)).mapM asciiCode with
      | _ :: rest, some bs => (tokens fuel rest).map (.str bs :: ·)
      | _, _ => none
    else if wordChar c then
      match tokenOfRun (c :: cs.takeWhile wordChar) with
      | some t => (tokens fuel (cs.dropWhile wordChar)).map (t :: ·)
      | none => none
    else none

/-- Byte operands separated by commas. -/
def operands : List Token → Option (List Nat)
  | [] => some []
  | [.num v] => some [v]
  | .num v :: .comma :: t :: ts => (operands (t :: ts)).map (v :: ·)
  | _ => none

/-- The read-port address of a register name (R77, R79). The name is taken in either case and the 7 in any number form
(the model's own, logs 15 and 17). -/
def readName : List Token → Option Nat
  | [.word ['S', 'T', 'A', 'T', 'U', 'S']] => some 0
  | [.word ['D', 'I', 'G', 'E', 'S', 'T', '0']] => some 1
  | [.word ['D', 'I', 'G', 'E', 'S', 'T', '1']] => some 2
  | [.word ['D', 'I', 'G', 'E', 'S', 'T', '2']] => some 3
  | [.word ['D', 'I', 'G', 'E', 'S', 'T', '3']] => some 4
  | [.word ['L', 'E', 'N', 'L', 'O']] => some 5
  | [.word ['L', 'E', 'N', 'H', 'I']] => some 6
  | [.num 7] => some 7
  | _ => none

/-- One command of a line; `some none` is an empty line, which stands for no command (the model's own, log 17). -/
def parseTokens : List Token → Option (Option AsmOp)
  | [] => some none
  | [.word ['I', 'N', 'I', 'T']] => some (some .init)
  | [.word ['F', 'I', 'N', 'A', 'L']] => some (some .final)
  | .word ['U', 'P', 'D', 'A', 'T', 'E'] :: ts => (operands ts).map (fun bs => some (.update bs))
  | [.word ['.', 'C', 'M', 'D'], .num v] => some (some (.raw v))
  | .word ['R', 'D'] :: ts => (readName ts).map (fun a => some (.rd a))
  | [.word ['P', 'U', 'S', 'H'], .str bs] => some (some (.push bs))
  | .word ['P', 'U', 'S', 'H'] :: ts => (operands ts).map (fun bs => some (.push bs))
  | [.word ['H', 'A', 'S', 'H'], .str bs] => some (some (.hash bs))
  | [.word ['R', 'D', 'D', 'I', 'G', 'E', 'S', 'T']] => some (some .rdDigest)
  | _ => none

/-- The port words of a line of text (R79, R80); `none` where it is no line of the syntax. -/
def assembleLine (cs : List Char) : Option (List PortWord) :=
  match tokens (cs.length + 1) cs with
  | some ts =>
    match parseTokens ts with
    | some (some o) => o.expand
    | some none => some []
    | none => none
  | none => none

/-- The cycles in which a host presents port words one after another: a command in a cycle of its own and then
`wait` + 1 cycles with `cmd_ready = 0`, a read in a cycle of its own (70_reset_and_hazards.md R233, R239). -/
def driveWord (wait : Nat) (p : PortWord) : List Cycle :=
  match p with
  | .cmd w => cycleOf (.cmd w) :: (List.replicate wait ⟨false, none, none, false⟩ ++ [Cycle.idle])
  | .rd a => [cycleOf (.rd a)]

/-- The same for a sequence of words, each with a wait of its own: the word at position `k` waits `waits k` cycles, so that
every command may have a latency of its own (00_scope.md R8). -/
def driveWords (waits : Nat → Nat) : List PortWord → List Cycle
  | [] => []
  | p :: ps => driveWord (waits 0) p ++ driveWords (fun k => waits (k + 1)) ps

/-! ### Hexadecimal rendering (R189) -/

/-- A hexadecimal digit in lower case. -/
def hexDigit (v : Nat) : Char := if v < 10 then Char.ofNat (48 + v) else Char.ofNat (87 + v)

/-- "two per byte, most-significant nibble first within each byte, bytes in digest order" (R189). -/
def hexRender (bs : List Byte) : List Char := bs.flatMap (fun b => [hexDigit (b.toNat / 16), hexDigit (b.toNat % 16)])

end Sys2Proof.Machine
end

