-- ==== Sys2Proof/Safety.lean ====
section
/-! DEFINITION. What claims about the core are stated in: the invariants of 10_state.md R33, the host's duties of
70_reset_and_hazards.md R239, the transaction-level machine of 00_scope.md R11 and 40_accumulator.md R100, the digest of
a whole message, and the runs of R240. -/

namespace Sys2Proof.Machine

/-- A step answers a next state. -/
def Safe (s : State) : Prop := ∃ t, step s = .next t

/-! ### Invariants (10_state.md R33) -/

/-- What holds between any two commands: R33 points 1, 3, 4, 5, the consequence of R24 that LEN counts whole bytes, and
the legal pairs of ECODE and DONE of 42_readport.md R181. -/
structure Arch.Inv (a : Arch) : Prop where
  pend_lt : a.pend.length < 64
  done_pend : a.done = true → a.pend = []
  ecode_err : a.ecode = .none ↔ a.err = false
  ecode_done : a.ecode = .updateAfterFinal ∨ a.ecode = .finalAfterFinal → a.done = true
  len_bytes : a.len.toNat % 8 = 0
  len_pend : a.done = false → a.len.toNat / 8 % 64 = a.pend.length

/-! ### The digest of a whole message -/

/-- The four words of the MD5 of a message (40_accumulator.md R109): the whole message is padded with its length in bits
modulo 2^64 (R105, R108) and its blocks are compressed in order from the IV. No accumulator takes part. -/
def md5Words (msg : List Byte) : HashWords :=
  compressBlocks ((pad msg (BitVec.ofNat 64 (8 * msg.length))).length / 64) iv
    (pad msg (BitVec.ofNat 64 (8 * msg.length)))

/-- The message accepted since the last INIT or reset is `msg` (10_state.md R33, points 2, 3, 4, 6 and 7). -/
structure Arch.Represents (a : Arch) (msg : List Byte) : Prop where
  len_eq : a.len = BitVec.ofNat 64 (8 * msg.length)
  active_pend : a.done = false → a.pend = msg.drop (64 * (msg.length / 64))
  active_regs : a.done = false → a.regs = compressBlocks (msg.length / 64) iv msg
  done_pend : a.done = true → a.pend = []
  done_regs : a.done = true → a.regs = md5Words msg

/-! ### The transaction level (00_scope.md R11) -/

/-- `EXEC(w)` on the architectural tuple, in the order of tests of 40_accumulator.md R100. -/
def Arch.execWord (w : DWord) (a : Arch) : Arch :=
  match decodeCommand w with
  | .error _ => a.raise .illegalCmd
  | .ok i =>
    if i = .init then Arch.reset
    else if a.err = true then a
    else if i.isUpdate = true then
      if a.done = true then a.raise .updateAfterFinal else a.absorbAll i.bytes
    else
      if a.done = true then a.raise .finalAfterFinal else a.finish

/-- `READ(core, x)` for the eight addresses (30_encoding.md R77). -/
def Arch.read (addr : BitVec 3) (a : Arch) : Word :=
  match addr.toNat with
  | 0 => a.status
  | 1 => if a.done then a.regs.a else 0
  | 2 => if a.done then a.regs.b else 0
  | 3 => if a.done then a.regs.c else 0
  | 4 => if a.done then a.regs.d else 0
  | 5 => a.len.extractLsb' 0 32
  | 6 => a.len.extractLsb' 32 32
  | _ => 0

/-- What can change the architectural state: a reset edge or an accepted word. -/
inductive Event where
  | reset
  | accepted (w : DWord)
  deriving DecidableEq, Repr

/-- The transaction-level effect of an event (70_reset_and_hazards.md R230, 40_accumulator.md R100). -/
def Event.apply (a : Arch) : Event → Arch
  | .reset => Arch.reset
  | .accepted w => a.execWord w

/-- `cmd_ready` in the cycle after one cycle (R230, R233). -/
def Cycle.readyAfter (ready : Bool) (c : Cycle) : Bool :=
  if c.rst then c.rise
  else if ready then c.cmd.isNone
  else c.rise

/-- The event of one cycle, if it has one (R230, R233). -/
def Cycle.event (ready : Bool) (c : Cycle) : Option Event :=
  if c.rst then some .reset
  else if ready then c.cmd.map .accepted
  else none

/-- `cmd_ready` after a sequence of cycles. -/
def readyAfter : Bool → List Cycle → Bool
  | r, [] => r
  | r, c :: cs => readyAfter (c.readyAfter r) cs

/-- The reset edges and accepted words of a sequence of cycles, in order. -/
def eventsOf : Bool → List Cycle → List Event
  | _, [] => []
  | r, c :: cs => (c.event r).toList ++ eventsOf (c.readyAfter r) cs

/-- The architectural state after a sequence of events (70_reset_and_hazards.md R240). -/
def runEvents (a : Arch) (es : List Event) : Arch := es.foldl Event.apply a

/-- The message after one accepted word: INIT starts a new one, an UPDATE that takes effect appends its bytes, and
nothing else changes it (10_state.md R33 point 2). -/
def messageAfter (w : DWord) (a : Arch) (msg : List Byte) : List Byte :=
  match decodeCommand w with
  | .error _ => msg
  | .ok i =>
    if i = .init then []
    else if a.err = true ∨ a.done = true then msg
    else msg ++ i.bytes

/-- The message after one event. -/
def Event.message (a : Arch) (msg : List Byte) : Event → List Byte
  | .reset => []
  | .accepted w => messageAfter w a msg

/-! ### Time: the open parameters of 00_scope.md R8 -/

/-- A cycle with `rst = 0` in which the host does nothing and `cmd_ready`, where it is 0, does not rise. -/
def Cycle.busy : Cycle := ⟨false, none, none, false⟩

/-- `n` cycles of waiting, with `cmd_ready` rising at the end of the last. -/
def waitCycles : Nat → List Cycle
  | 0 => []
  | n + 1 => List.replicate n Cycle.busy ++ [Cycle.idle]

/-- The cycles from acceptance of a command to the next rise of `cmd_ready` (R8); reads take none. -/
def timingCycles (T : Config.Timing) (a : Arch) : Instr → Nat
  | .init => T.cyclesInit
  | .updateN0 => T.cyclesUpdate a.pend.length 0
  | .updateN1 _ => T.cyclesUpdate a.pend.length 1
  | .updateN2 _ _ => T.cyclesUpdate a.pend.length 2
  | .updateN3 _ _ _ => T.cyclesUpdate a.pend.length 3
  | .updateN4 _ _ _ _ => T.cyclesUpdate a.pend.length 4
  | .final => T.cyclesFinal a.pend.length
  | .rdStatus => 0
  | .rdDigest0 => 0
  | .rdDigest1 => 0
  | .rdDigest2 => 0
  | .rdDigest3 => 0
  | .rdLenLo => 0
  | .rdLenHi => 0
  | .rdRsvd7 => 0

/-- A core with these parameters, from the cycle of a command's acceptance to the next cycle with `cmd_ready = 1`
(log 4). -/
def commandCycles (T : Config.Timing) (a : Arch) (i : Instr) : List Cycle :=
  cycleOf (encode i) :: waitCycles (timingCycles T a i)

/-- A core with these parameters, from the last cycle with `rst = 1` to the next cycle with `cmd_ready = 1` (log 4). -/
def resetCyclesOf (T : Config.Timing) : List Cycle :=
  ⟨true, none, none, T.resetCycles == 0⟩ :: waitCycles T.resetCycles

/-! ### Runs and the host -/

/-- Instructions executed one after another, each completed before the next (70_reset_and_hazards.md R234). -/
def execAll : List Instr → State → Host.Outcome State Fault Refusal
  | [], s => .next s
  | i :: is, s => andThen (exec i s) (execAll is)

/-- A run has produced a digest (R240). -/
def Arch.hasDigest (a : Arch) : Prop := a.done = true

/-- A run has failed (R240). -/
def Arch.failed (a : Arch) : Prop := a.err = true

/-- The digest of a run that has produced one (42_readport.md R190). -/
def Arch.digest (a : Arch) : List Byte := digestBytes a.regs

/-- The host's read duty (70_reset_and_hazards.md R239): it samples `rd_data` only while `cmd_ready = 1`. -/
def State.readDuty (s : State) : Prop :=
  s.nextCycle.rd.isSome = true → s.cmdReady = true ∧ s.nextCycle.rst = false

end Sys2Proof.Machine
end

