-- ==== Sys2Proof/Certificates/Slice0/Obligations.lean ====
section
/-! DEFINITION. The statements for the provers. Each docstring says which text of spec/ it formalises. -/

open Sys2Proof Sys2Proof.Machine

/-! ### Encoding -/

/-- 95_test_vectors.md V17 and 30_encoding.md R79: words written out from the spec decode to their instructions, and
illegal ones to none. -/
def Obligations.WordsOfTheSpecDecode : Prop :=
  decodeCommand 0x0000000000000001#64 = .ok .init ∧
  decodeCommand 0xdeadbeef00000001#64 = .ok .init ∧
  decodeCommand 0x0000000000000011#64 = .error .countNotZero ∧
  decodeCommand 0x0000000000000081#64 = .error .reservedBitsSet ∧
  decodeCommand 0x0000000000000002#64 = .ok .updateN0 ∧
  decodeCommand 0xffffff6100000012#64 = .ok (.updateN1 0x61) ∧
  decodeCommand 0x0000626100000022#64 = .ok (.updateN2 0x61 0x62) ∧
  decodeCommand 0x0063626100000032#64 = .ok (.updateN3 0x61 0x62 0x63) ∧
  decodeCommand 0x6463626100000042#64 = .ok (.updateN4 0x61 0x62 0x63 0x64) ∧
  decodeCommand 0x0000000000000052#64 = .error .countTooLarge ∧
  decodeCommand 0xffffffff00000003#64 = .ok .final ∧
  decodeCommand 0x0000000000000000#64 = .error .undefinedOp ∧
  decodeRead 0#3 = .rdStatus ∧ decodeRead 4#3 = .rdDigest3 ∧ decodeRead 7#3 = .rdRsvd7

/-- Decode and encode agree: the canonical word of every instruction (R77, R79), with its bytes at every value, decodes to
that instruction (R74). -/
def Obligations.DecodeInvertsEncode : Prop := ∀ i : Instr, decode (encode i) = .ok i

/-- R55, R74: the decoder by its field tests, in Nat arithmetic on the word. An UPDATE's bytes are lanes 0 to N-1 in stream
order. -/
def Obligations.DecoderFollowsItsFieldTests : Prop :=
  ∀ (w : DWord) (op n rsv : Nat), op = w.toNat % 16 → n = w.toNat / 16 % 8 → rsv = w.toNat / 128 % 2 ^ 25 →
    (decodeCommand w = .ok .init ↔ rsv = 0 ∧ op = 1 ∧ n = 0) ∧
    ((∃ i, decodeCommand w = .ok i ∧ i.isUpdate = true ∧
        i.bytes = (List.range n).map (fun k => BitVec.ofNat 8 (w.toNat / 2 ^ (32 + 8 * k)))) ↔
      rsv = 0 ∧ op = 2 ∧ n ≤ 4) ∧
    (decodeCommand w = .ok .final ↔ rsv = 0 ∧ op = 3 ∧ n = 0) ∧
    ((∃ r, decodeCommand w = .error r) ↔
      ¬(rsv = 0 ∧ op = 1 ∧ n = 0) ∧ ¬(rsv = 0 ∧ op = 2 ∧ n ≤ 4) ∧ ¬(rsv = 0 ∧ op = 3 ∧ n = 0))

/-- R72: two words that agree on bits 31:0 and on the lanes the command uses decode alike, whatever the other lanes hold;
INIT and FINAL use no lane, and N is the unsigned field 6:4. -/
def Obligations.UnusedLanesAreIgnored : Prop :=
  ∀ (w w' : DWord) (i : Instr), decodeCommand w = .ok i →
    (i.isUpdate = true → i.bytes.length = w.toNat / 16 % 8 ∧
      ∀ k, k < i.bytes.length → i.bytes[k]? = some (w.extractLsb' (32 + 8 * k) 8)) ∧
    ((i = .init ∨ i = .final) → i.bytes = []) ∧
    (w'.extractLsb' 0 32 = w.extractLsb' 0 32 →
      (∀ k, k < i.bytes.length → w'.extractLsb' (32 + 8 * k) 8 = w.extractLsb' (32 + 8 * k) 8) →
      decodeCommand w' = .ok i)

/-- R73: the decoder accepts exactly the words of the table's rows, each in its own row; an UPDATE is matched by
`(w & 0x00000000FFFFFF8F) == 2` with `w[6:4] <= 4`; the read at address a is the row of that address. -/
def Obligations.LegalWordsAreTheTableRows : Prop :=
  (∀ w : DWord, (∃ i, decodeCommand w = .ok i) ↔ legalWord w = true) ∧
  (∀ (w : DWord) (i : Instr), decodeCommand w = .ok i →
    ∃ r, commandRows[i.row]? = some r ∧ r.accepts w = true) ∧
  (∀ w : DWord, (∃ i, decodeCommand w = .ok i ∧ i.isUpdate = true) ↔
    w &&& 0x00000000FFFFFF8F#64 = 0x0000000000000002#64 ∧ w.toNat / 16 % 8 ≤ 4) ∧
  (∀ a : BitVec 3, (decodeRead a).row = 7 + a.toNat)

/-- No two rows of the command table overlap: a legal word lies in one row only. -/
def Obligations.CommandRowsDoNotOverlap : Prop :=
  ∀ (w : DWord) (j k : Nat) (r q : CommandRow), commandRows[j]? = some r → commandRows[k]? = some q →
    r.accepts w = true → q.accepts w = true → j = k

/-- R75: a word with RSV not 0, OP not 1, 2 or 3, N not 0 on INIT or FINAL, or N above 4 on UPDATE, is illegal. The
handshake accepts it like any other word (cmd_ready falls), and its whole effect is the error action with ECODE = 3. A
read in the same cycle still samples the state before the word. That the cycle is taken off the schedule, and that the
machine records the last sample and counts draws, is the model's own (logs 2, 6 and 5). -/
def Obligations.IllegalWordsOnlyRaiseCodeThree : Prop :=
  ∀ (s : State) (c : Cycle) (cs : List Cycle) (w : DWord) (op n rsv : Nat),
    op = w.toNat % 16 → n = w.toNat / 16 % 8 → rsv = w.toNat / 128 % 2 ^ 25 →
    (rsv ≠ 0 ∨ (op ≠ 1 ∧ op ≠ 2 ∧ op ≠ 3) ∨ ((op = 1 ∨ op = 3) ∧ n ≠ 0) ∨ (op = 2 ∧ 4 < n)) →
    s.schedule = c :: cs → c.rst = false → c.cmd = some w → s.cmdReady = true →
    ∃ v, step s = .next { s with
        arch := if s.arch.err = true then s.arch else { s.arch with err := true, ecode := .illegalCmd }
        cmdReady := false
        rdData := v
        schedule := cs } ∧
      (c.rd = none → v = s.rdData) ∧ (∀ a, c.rd = some a → v = s.arch.read a)

/-! ### INIT -/

/-- R101: INIT is the words with `(w & 0xFFFFFFFF) == 1`; in every state it loads the values of the rule, which are the
reset values (R32), and changes nothing else; a second INIT changes nothing. The IV's values are those of R21. -/
def Obligations.InitLoadsTheResetState : Prop :=
  (∀ w : DWord, decodeCommand w = .ok .init ↔ w &&& 0x00000000FFFFFFFF#64 = 0x0000000000000001#64) ∧
  (∀ s : State,
    exec .init s = .next { s with
      arch := ⟨⟨0x67452301#32, 0xefcdab89#32, 0x98badcfe#32, 0x10325476#32⟩, [], 0#64, false, false, .none⟩ }) ∧
  State.reset.arch = ⟨⟨0x67452301#32, 0xefcdab89#32, 0x98badcfe#32, 0x10325476#32⟩, [], 0#64, false, false, .none⟩ ∧
  (∀ s t : State, exec .init s = .next t → exec .init t = .next t)

/-! ### UPDATE -/

/-- R103: ABSORB of one byte, and the bulk form of any UPDATE in phase ACTIVE: all bytes appended, each complete 64-byte
block compressed in order, the rest pending, 8 x len(bytes) added to LEN modulo 2^64; PEND ends below 64 bytes and nothing
else changes. -/
def Obligations.UpdateAbsorbsItsBytes : Prop :=
  (∀ (s : State) (x : Byte), s.arch.err = false → s.arch.done = false →
    exec (.updateN1 x) s = .next { s with
      arch := { s.arch with
        len := s.arch.len + 8
        pend := if (s.arch.pend ++ [x]).length = 64 then [] else s.arch.pend ++ [x]
        regs := if (s.arch.pend ++ [x]).length = 64 then compress s.arch.regs (s.arch.pend ++ [x]) else s.arch.regs } }) ∧
  (∀ (i : Instr) (s : State), i.isUpdate = true → s.arch.err = false → s.arch.done = false → s.arch.pend.length < 64 →
    ∃ t, exec i s = .next t ∧
      t = { s with
        arch := { s.arch with
          len := BitVec.ofNat 64 (s.arch.len.toNat + 8 * i.bytes.length)
          pend := (s.arch.pend ++ i.bytes).drop (64 * ((s.arch.pend ++ i.bytes).length / 64))
          regs := compressBlocks ((s.arch.pend ++ i.bytes).length / 64) s.arch.regs (s.arch.pend ++ i.bytes) } } ∧
      t.arch.pend.length < 64)

/-- 40_accumulator.md section 3: an UPDATE is its bytes absorbed one after another, lane 0 first, in every state. -/
def Obligations.UpdateIsOneByteAfterAnother : Prop :=
  ∀ (b0 b1 b2 b3 : Byte) (s : State),
    exec (.updateN2 b0 b1) s = execAll [.updateN1 b0, .updateN1 b1] s ∧
    exec (.updateN3 b0 b1 b2) s = execAll [.updateN1 b0, .updateN1 b1, .updateN1 b2] s ∧
    exec (.updateN4 b0 b1 b2 b3) s = execAll [.updateN1 b0, .updateN1 b1, .updateN1 b2, .updateN1 b3] s

/-- 40_accumulator.md section 3, corner case: N = 0 with DONE = 0 changes no state at all. -/
def Obligations.EmptyUpdateInPhaseActiveChangesNothing : Prop :=
  ∀ s : State, s.arch.done = false → exec .updateN0 s = .next s

/-! ### FINAL and padding -/

/-- R104: FINAL is the words with `(w & 0xFFFFFFFF) == 3`. In phase ACTIVE it compresses the padded tail, one block for
p <= 55 and two for p >= 56 (layouts of 40_accumulator.md section 4), empties PEND, sets DONE and keeps LEN; with DONE = 1
it only raises code 2; with ERR = 1 it does nothing. -/
def Obligations.FinalPadsAndCompresses : Prop :=
  (∀ w : DWord, decodeCommand w = .ok .final ↔ w &&& 0x00000000FFFFFFFF#64 = 0x0000000000000003#64) ∧
  (∀ (s : State) (l8 : List Byte), s.arch.err = false → s.arch.done = false → s.arch.pend.length < 64 →
    l8 = (List.range 8).map (fun j => BitVec.ofNat 8 (s.arch.len.toNat / 2 ^ (8 * j))) →
    exec .final s = .next { s with
      arch := { s.arch with
        done := true
        pend := []
        regs :=
          if s.arch.pend.length ≤ 55 then
            compress s.arch.regs (s.arch.pend ++ [0x80#8] ++ List.replicate (55 - s.arch.pend.length) 0#8 ++ l8)
          else
            compress
              (compress s.arch.regs (s.arch.pend ++ [0x80#8] ++ List.replicate (63 - s.arch.pend.length) 0#8))
              (List.replicate 56 0#8 ++ l8) } }) ∧
  (∀ s : State, s.arch.err = false → s.arch.done = true →
    exec .final s = .next { s with arch := { s.arch with err := true, ecode := .finalAfterFinal } }) ∧
  (∀ s : State, s.arch.err = true → exec .final s = .next s)

/-- R53, R105: PAD is the bytes, 0x80, the least number z of zero bytes that makes p + 1 + z = 56 modulo 64, and the length in
little-endian order; it is 64 or 128 bytes long, and its last eight bytes are the length's, least significant first. -/
def Obligations.PaddingIsOneOrTwoBlocks : Prop :=
  ∀ (pb : List Byte) (l : DWord), pb.length < 64 →
    ∃ z, z < 64 ∧ pad pb l = pb ++ [0x80#8] ++ List.replicate z 0#8 ++ le64bytes l ∧
      (pb.length + 1 + z) % 64 = 56 ∧ (∀ z', (pb.length + 1 + z') % 64 = 56 → z ≤ z') ∧
      (pad pb l).length = (if pb.length ≤ 55 then 64 else 128) ∧
      ∀ j, j < 8 → (pad pb l)[(pad pb l).length - 8 + j]? = some (BitVec.ofNat 8 (l.toNat / 2 ^ (8 * j)))

/-! ### Errors -/

/-- R201, R203: an UPDATE (any N) or FINAL with DONE = 1 and ERR = 0, and an illegal word with ERR = 0 in either phase,
record their code and change nothing else; with ERR = 1 none changes anything. The codes read as 0, 1, 2, 3. -/
def Obligations.ErrorsTouchOnlyErrAndEcode : Prop :=
  (∀ (i : Instr) (s : State), i.isUpdate = true → s.arch.err = false → s.arch.done = true →
    exec i s = .next { s with arch := { s.arch with err := true, ecode := .updateAfterFinal } }) ∧
  (∀ s : State, s.arch.err = false → s.arch.done = true →
    exec .final s = .next { s with arch := { s.arch with err := true, ecode := .finalAfterFinal } }) ∧
  (∀ (w : DWord) (r : CommandReject) (s : State), decodeCommand w = .error r → s.arch.err = false →
    execWord w s = .next { s with arch := { s.arch with err := true, ecode := .illegalCmd } }) ∧
  (∀ (w : DWord) (r : CommandReject) (s : State), decodeCommand w = .error r → s.arch.err = true →
    execWord w s = .next s) ∧
  (∀ (i : Instr) (s : State), i.isUpdate = true ∨ i = .final → s.arch.err = true → exec i s = .next s) ∧
  ErrorCode.none.bits = 0 ∧ ErrorCode.updateAfterFinal.bits = 1 ∧ ErrorCode.finalAfterFinal.bits = 2 ∧
  ErrorCode.illegalCmd.bits = 3

/-- R204: while ERR = 1 every accepted word but a legal INIT has no effect at all, so STATE and DONE stay and the digest
registers still show what they showed. Only INIT and `rst` end it. -/
def Obligations.PoisonedCoreIgnoresAllButInit : Prop :=
  (∀ (w : DWord) (s : State), s.arch.err = true → decodeCommand w ≠ .ok .init → execWord w s = .next s) ∧
  (∀ (w : DWord) (s : State), decodeCommand w = .ok .init → ∃ t, execWord w s = .next t ∧ t.arch.err = false) ∧
  (∀ (s : State) (c : Cycle) (cs : List Cycle), s.schedule = c :: cs → c.rst = true →
    ∃ t, step s = .next t ∧ t.arch.err = false) ∧
  (∀ (i : Instr) (s t u : State) (a : BitVec 3), i.isUpdate = true ∨ i = .final → s.arch.done = true →
    s.cmdReady = true → exec i s = .next t → exec (decodeRead a) t = .next u → 1 ≤ a.toNat → a.toNat ≤ 4 →
    exec (decodeRead a) s = .next { s with rdData := u.rdData })

/-- R100, R205: an accepted word has the effect of EXEC, whose tests come in the order illegal, INIT, ERR = 1, DONE = 1,
execute (`Arch.execWord` of Safety.lean, written in that order), on the architectural tuple and on nothing else. -/
def Obligations.ExecFollowsThePrecedenceOrder : Prop :=
  ∀ (w : DWord) (s : State), execWord w s = .next { s with arch := s.arch.execWord w }

/-! ### Read port -/

/-- R181, first clauses: STATUS is `(len(PEND) << 4) | (ECODE << 2) | (ERR << 1) | DONE`, its bits 31:10 are 0, and it is 0
after reset; reading it changes `rd_data` only. -/
def Obligations.StatusReadPacksCountAndFlags : Prop :=
  (∀ s : State, s.cmdReady = true → s.arch.pend.length < 64 →
    exec .rdStatus s = .next { s with
      rdData := BitVec.ofNat 32 (s.arch.pend.length * 16 + s.arch.ecode.bits.toNat * 4 + s.arch.err.toNat * 2 +
        s.arch.done.toNat) }) ∧
  (∀ a : Arch, a.status.toNat < 2 ^ 10) ∧ State.reset.arch.status = 0

/-- 42_readport.md section 2, derived there: the legal values of STATUS bits 3:0, and PCOUNT = 0 whenever DONE = 1, in every
state that meets the invariants. -/
def Obligations.StatusTakesItsLegalValuesOnly : Prop :=
  ∀ a : Arch, a.Inv →
    a.status.toNat % 16 ∈ [0b0000, 0b0001, 0b0111, 0b1011, 0b1110, 0b1111] ∧
    (a.done = true → a.status.toNat / 16 = 0) ∧ (a.done = false → a.status.toNat / 16 = a.pend.length)

/-- R182 to R185: at addresses 1 to 4 DIGESTk is STATE[k] while DONE = 1 and 0 while DONE = 0; reading it changes `rd_data`
only, and the error action leaves what it reads unchanged. -/
def Obligations.DigestReadsShowTheStateOnlyWhenDone : Prop :=
  (∀ s : State, s.cmdReady = true →
    exec .rdDigest0 s = .next { s with rdData := if s.arch.done = true then s.arch.regs.a else 0 } ∧
    exec .rdDigest1 s = .next { s with rdData := if s.arch.done = true then s.arch.regs.b else 0 } ∧
    exec .rdDigest2 s = .next { s with rdData := if s.arch.done = true then s.arch.regs.c else 0 } ∧
    exec .rdDigest3 s = .next { s with rdData := if s.arch.done = true then s.arch.regs.d else 0 }) ∧
  [0b001#3, 0b010#3, 0b011#3, 0b100#3].map decodeRead = [.rdDigest0, .rdDigest1, .rdDigest2, .rdDigest3] ∧
  (∀ (s t u : State) (e : ErrorCode) (a : BitVec 3), s.cmdReady = true → 1 ≤ a.toNat → a.toNat ≤ 4 →
    t = { s with arch := s.arch.raise e } → exec (decodeRead a) t = .next u →
    exec (decodeRead a) s = .next { s with rdData := u.rdData })

/-- 42_readport.md section 2: LENLO and LENHI are the two halves of LEN in every phase, and LENLO's bits 2:0 read 0 where LEN
counts whole bytes; reading them changes `rd_data` only. -/
def Obligations.LengthReadsShowTheTwoHalves : Prop :=
  ∀ s : State, s.cmdReady = true →
    exec .rdLenLo s = .next { s with rdData := BitVec.ofNat 32 (s.arch.len.toNat % 2 ^ 32) } ∧
    exec .rdLenHi s = .next { s with rdData := BitVec.ofNat 32 (s.arch.len.toNat / 2 ^ 32) } ∧
    (s.arch.len.toNat % 8 = 0 → (BitVec.ofNat 32 (s.arch.len.toNat % 2 ^ 32)).toNat % 8 = 0)

/-- R188: the reserved address 0b111 reads 0 in every state, and that is no error. -/
def Obligations.ReservedAddressReadsZero : Prop :=
  decodeRead 0b111#3 = .rdRsvd7 ∧
  ∀ s : State, s.cmdReady = true → exec .rdRsvd7 s = .next { s with rdData := 0 }

/-- R77, R180: every address of the map returns its function of the architectural state and of nothing else; no other state
changes, and the same read again returns the same value. -/
def Obligations.ReadsAreFunctionsWithoutSideEffect : Prop :=
  ∀ (a : BitVec 3) (s s' : State), s.cmdReady = true → s'.cmdReady = true → s'.arch = s.arch →
    exec (decodeRead a) s = .next { s with rdData := s.arch.read a } ∧
    exec (decodeRead a) s' = .next { s' with rdData := s.arch.read a } ∧
    execAll [decodeRead a, decodeRead a] s = .next { s with rdData := s.arch.read a }

/-- 70_reset_and_hazards.md section 3: a read while cmd_ready = 0 completes with an unspecified value. That the value is the
draw `Config.freeRdData s.draws` and that the draw counter advances is the model's choice (log 5). -/
def Obligations.BusyReadsAreFreeValues : Prop :=
  ∀ (a : BitVec 3) (s : State), s.cmdReady = false →
    exec (decodeRead a) s = .next { s with rdData := Config.freeRdData s.draws, draws := s.draws + 1 }

/-- 10_state.md section 1, 42_readport.md section 2: while DONE = 0 no read distinguishes two cores that differ only in the
state register. -/
def Obligations.IntermediateStateIsNotObservable : Prop :=
  ∀ (a : BitVec 3) (s : State) (st : HashWords), s.arch.done = false → s.cmdReady = true →
    ∃ v, exec (decodeRead a) s = .next { s with rdData := v } ∧
      exec (decodeRead a) { s with arch := { s.arch with regs := st } } =
        .next { s with arch := { s.arch with regs := st }, rdData := v }

/-- R54: the digest is 16 bytes, its byte 4k+j is STATE[k][8j+7:8j], and (R56, R190) that is byte j of what DIGESTk reads
while DONE = 1. -/
def Obligations.DigestBytesAreTheWordsLittleEndian : Prop :=
  ∀ (s : State) (k j : Nat), s.arch.done = true → s.cmdReady = true → k < 4 → j < 4 →
    s.arch.digest.length = 16 ∧
    ∃ w, [s.arch.regs.a, s.arch.regs.b, s.arch.regs.c, s.arch.regs.d][k]? = some w ∧
      s.arch.digest[4 * k + j]? = some (BitVec.ofNat 8 (w.toNat / 2 ^ (8 * j))) ∧
      exec (decodeRead (BitVec.ofNat 3 (1 + k))) s = .next { s with rdData := w }

/-! ### The compression function -/

/-- 00_scope.md section 5: rotl32 by 1 to 31 is `((x * 2^s) mod 2^32) | floor(x / 2^(32-s))`, and no bit is lost: bit j of x
is bit (j + s) mod 32 of the result. -/
def Obligations.RotationIsTheArithmeticOne : Prop :=
  ∀ (x : Word) (s : Nat), 1 ≤ s → s ≤ 31 →
    (rotl32 x s).toNat = (x.toNat * 2 ^ s % 2 ^ 32) ||| (x.toNat / 2 ^ (32 - s)) ∧
    ∀ j, j < 32 → (rotl32 x s).getLsbD ((j + s) % 32) = x.getLsbD j

/-- 41_compression.md section 2: F, G, H and I bit by bit, by the table's per-bit meaning. -/
def Obligations.BooleanFunctionsBitByBit : Prop :=
  ∀ (x y z : Word) (k : Nat), k < 32 →
    (funF x y z).getLsbD k = (if x.getLsbD k = true then y.getLsbD k else z.getLsbD k) ∧
    (funG x y z).getLsbD k = (if z.getLsbD k = true then x.getLsbD k else y.getLsbD k) ∧
    (funH x y z).getLsbD k = ((x.getLsbD k).xor ((y.getLsbD k).xor (z.getLsbD k))) ∧
    (funI x y z).getLsbD k = ((y.getLsbD k).xor (x.getLsbD k || !(z.getLsbD k)))

/-- 41_compression.md section 2: in each group MIDX is a permutation of 0..15, every shift is in 4..23, and spot values of the
schedule table (95_test_vectors.md V12). -/
def Obligations.ScheduleOfTheRounds : Prop :=
  (∀ g, g < 4 → ∀ m, m < 16 → ∃ j, j < 16 ∧ midx (16 * g + j) = m) ∧
  (∀ i, i < 64 → 4 ≤ shift i ∧ shift i ≤ 23) ∧
  romTable.length = 64 ∧
  (midx 0, shift 0, romT 0) = (0, 7, 0xd76aa478#32) ∧ (midx 19, shift 19, romT 19) = (0, 20, 0xe9b6c7aa#32) ∧
  (midx 35, shift 35, romT 35) = (14, 23, 0xfde5380c#32) ∧ (midx 63, shift 63, romT 63) = (9, 21, 0xeb86d391#32)

/-- R52, R141: message word j of a 64-byte block is its bytes 4j to 4j+3, the earliest least significant. -/
def Obligations.MessageWordsAreLittleEndian : Prop :=
  ∀ (blk : List Byte) (j : Nat) (b0 b1 b2 b3 : Byte), blk.length = 64 → j < 16 →
    blk[4 * j]? = some b0 → blk[4 * j + 1]? = some b1 → blk[4 * j + 2]? = some b2 → blk[4 * j + 3]? = some b3 →
    (messageWords blk).length = 16 ∧
    ∃ m, (messageWords blk)[j]? = some m ∧
      m.toNat = b0.toNat + 2 ^ 8 * b1.toNat + 2 ^ 16 * b2.toNat + 2 ^ 24 * b3.toNat

/-- R152, R28: whatever the number of rounds per clock, a datapath loaded from the state register performs the rounds in the
order i = 0..63, its counter the number of the next round, below 64; when the rounds are done it has the result of R150 for
every state and block, and neither working registers nor counter. That round 63 and the feed-forward fall in one clock is
the model's own (log 14). -/
def Obligations.RoundsPerCycleIsUnobservable : Prop :=
  ∀ (T : Config.Timing) (n : Nat) (st : HashWords) (blk : List Byte), T.Legal →
    (n * T.roundsPerCycle < 64 → ∃ p : Datapath,
      DatapathPhase.clocks T.roundsPerCycle st (messageWords blk) n (.busy (Datapath.start st)) = .busy p ∧
      p.counter.val = n * T.roundsPerCycle ∧
      p.work = rounds (messageWords blk) 0 (n * T.roundsPerCycle) (loadWork st)) ∧
    (64 ≤ n * T.roundsPerCycle →
      DatapathPhase.clocks T.roundsPerCycle st (messageWords blk) n (.busy (Datapath.start st)) = .done (compress st blk))

/-- The example of 41_compression.md section 3, derived there: round 0 and the whole transform of the "abc" block from the
IV. -/
def Obligations.CompressionOfTheAbcBlock : Prop :=
  round 0 (loadWork iv) (messageWords (pad [0x61#8, 0x62#8, 0x63#8] 24#64)) =
    ⟨0x10325476#32, 0xd6d117b4#32, 0xefcdab89#32, 0x98badcfe#32⟩ ∧
  compress iv (pad [0x61#8, 0x62#8, 0x63#8] 24#64) = ⟨0x98500190#32, 0xb04fd23c#32, 0x7d3f96d6#32, 0x727fe128#32⟩

/-- 00_scope.md section 5: le32bytes is the inverse of le32, in both directions. -/
def Obligations.WordBytesAreInverse : Prop :=
  (∀ b0 b1 b2 b3 : Byte, le32bytes (le32 b0 b1 b2 b3) = [b0, b1, b2, b3]) ∧
  (∀ (w : Word) (b0 b1 b2 b3 : Byte), le32bytes w = [b0, b1, b2, b3] → le32 b0 b1 b2 b3 = w)

/-! ### The clock cycle -/

/-- A step runs the decoded command: in a cycle with rst = 0 and cmd_ready = 1 the presented word's instruction is executed,
on the state past that cycle, and cmd_ready falls. Taking the cycle off the schedule is the model's own (log 2). -/
def Obligations.StepRunsTheAcceptedCommand : Prop :=
  ∀ (s : State) (c : Cycle) (cs : List Cycle) (w : DWord) (i : Instr),
    s.schedule = c :: cs → c.rst = false → c.cmd = some w → c.rd = none → s.cmdReady = true → decodeCommand w = .ok i →
    ∃ t, exec i { s with schedule := cs } = .next t ∧ step s = .next { t with cmdReady := false }

/-- A step runs the decoded read: in a cycle with rst = 0, cmd_ready = 1 and no command, the read at the address is
executed, on the state past that cycle, and nothing is added. Taking the cycle off the schedule is the model's own
(log 2). -/
def Obligations.StepRunsTheRead : Prop :=
  ∀ (s : State) (c : Cycle) (cs : List Cycle) (a : BitVec 3),
    s.schedule = c :: cs → c.rst = false → c.cmd = none → c.rd = some a → s.cmdReady = true →
    step s = exec (decodeRead a) { s with schedule := cs }

/-- What the host's placing of a word means: the very next step runs exactly the instruction the decoder gives, on either
port. The placing (`decodeTableWord`, `withFetchWord`: which port a table word names, cmd_ready = 1 and one cycle put in
front) is the model's own (DESIGN CHOICE, log 13). -/
def Obligations.PlacedWordIsRunNext : Prop :=
  ∀ (s : State) (nbits w : Nat) (i : Instr), decodeTableWord nbits w = some i →
    ∃ t, exec i { s with cmdReady := true } = .next t ∧
      step (s.withFetchWord nbits w) = .next { t with cmdReady := i.isRead }

/-- 70_reset_and_hazards.md section 3: with cmd_ready = 1 a read shows the state left by every command accepted before the
cycle, and with a command in the same cycle still the state before that command; in a cycle with cmd_ready = 0 or rst = 1 the
value is unspecified (the draw is the model's, log 5). -/
def Obligations.ReadPortValidity : Prop :=
  (∀ (s : State) (c : Cycle) (cs : List Cycle) (a : BitVec 3), s.schedule = c :: cs → c.rst = false →
    c.cmd = none → c.rd = some a → s.cmdReady = true → ∃ t, step s = .next t ∧ t.rdData = s.arch.read a ∧ t.arch = s.arch) ∧
  (∀ (s : State) (c : Cycle) (cs : List Cycle) (a : BitVec 3) (w : DWord), s.schedule = c :: cs → c.rst = false →
    c.cmd = some w → c.rd = some a → s.cmdReady = true →
    ∃ t, step s = .next t ∧ t.rdData = s.arch.read a ∧ t.arch = s.arch.execWord w) ∧
  (∀ (s : State) (c : Cycle) (cs : List Cycle) (a : BitVec 3), s.schedule = c :: cs → c.rd = some a →
    (s.cmdReady = false ∨ c.rst = true) → ∃ t, step s = .next t ∧ t.rdData = Config.freeRdData s.draws)

/-- R230: a rising edge with rst = 1 gives the reset values of R32 whatever the state, whatever was in progress, accepts no command, and in its
cycle cmd_ready is 0. What cmd_ready is in the next cycle is the schedule's and no part of this statement (log 3). -/
def Obligations.ResetEdgeGivesTheResetState : Prop :=
  ∀ (s : State) (c : Cycle) (cs : List Cycle), s.schedule = c :: cs → c.rst = true →
    ∃ t, step s = .next t ∧
      t.arch = ⟨⟨0x67452301#32, 0xefcdab89#32, 0x98badcfe#32, 0x10325476#32⟩, [], 0#64, false, false, .none⟩ ∧
      (∀ x : Option DWord, step { s with schedule := { c with cmd := x } :: cs } = .next t) ∧
      (∀ r : Bool, ∀ a : Arch, step { s with cmdReady := r, arch := a } = .next t) ∧
      (s.begin c).cmdReady = false

/-- 70_reset_and_hazards.md section 2: while cmd_ready = 0 the core accepts nothing; the word on the port and cmd_valid have
no effect, and the architectural state stays. That cmd_ready is then the bit `rise` of the cycle is the model's own form of
the open timing (DESIGN CHOICE, log 3). -/
def Obligations.CommandsAreIgnoredWhileNotReady : Prop :=
  ∀ (s : State) (c : Cycle) (cs : List Cycle), s.schedule = c :: cs → c.rst = false → s.cmdReady = false →
    ∃ t, step s = .next t ∧ t.arch = s.arch ∧ t.cmdReady = c.rise ∧
      ∀ x : Option DWord, step { s with schedule := { c with cmd := x } :: cs } = .next t

/-- 70_reset_and_hazards.md sections 2 and 4, for every legal choice of the parameters of 00_scope.md R8, read as in log 4: a
command on the core keeps cmd_ready low for exactly its number of cycles, then cmd_ready is 1 and the state is EXEC's. -/
def Obligations.CommandsCompleteAfterTheirCycles : Prop :=
  ∀ (T : Config.Timing) (s : State) (i : Instr) (cs : List Cycle), T.Legal → i.isRead = false → s.cmdReady = true →
    s.schedule = commandCycles T s.arch i ++ cs →
    1 ≤ timingCycles T s.arch i ∧
    (∀ k, 1 ≤ k → k ≤ timingCycles T s.arch i → ∃ t : State, Host.Core.run Sys2Proof.core k s = .next t ∧ t.cmdReady = false) ∧
    ∃ t u : State, exec i s = .next u ∧ Host.Core.run Sys2Proof.core (timingCycles T s.arch i + 1) s = .next t ∧
      t.cmdReady = true ∧ t.arch = u.arch ∧ t.schedule = cs

/-- 70_reset_and_hazards.md section 1, for every legal choice of the parameters, read as in log 4: from the last cycle with
rst = 1, cmd_ready stays 0 for RESET_CYCLES cycles more and is then 1, in the reset state. -/
def Obligations.ResetCompletesAfterItsCycles : Prop :=
  ∀ (T : Config.Timing) (s : State) (cs : List Cycle), s.schedule = resetCyclesOf T ++ cs →
    (∀ k, 1 ≤ k → k ≤ T.resetCycles →
      ∃ t : State, Host.Core.run Sys2Proof.core k s = .next t ∧ t.cmdReady = false ∧ t.arch = Arch.reset) ∧
    ∃ t : State, Host.Core.run Sys2Proof.core (T.resetCycles + 1) s = .next t ∧ t.cmdReady = true ∧ t.arch = Arch.reset ∧
      t.schedule = cs

/-- R61, R234: a read sampled while cmd_ready = 1, after any sequence of cycles, shows the effects of exactly the commands
accepted before its cycle, all of them and in order. -/
def Obligations.ReadsObserveExactlyTheCommandsBefore : Prop :=
  ∀ (s : State) (pre post : List Cycle) (c : Cycle) (a : BitVec 3), s.schedule = pre ++ c :: post → c.rst = false →
    c.rd = some a → readyAfter s.cmdReady pre = true →
    ∃ t : State, Host.Core.run Sys2Proof.core (pre.length + 1) s = .next t ∧
      t.rdData = (runEvents s.arch (eventsOf s.cmdReady pre)).read a

/-- A host that keeps its read duty (70_reset_and_hazards.md section 5) never samples a free value: the draw counter, the
model's own (log 5), stays. -/
def Obligations.ReadDutyKeepsFreeValuesAway : Prop :=
  ∀ s : State, s.readDuty → ∃ t, step s = .next t ∧ t.draws = s.draws ∧
    (∀ a, s.nextCycle.rd = some a → t.rdData = s.arch.read a)

/-! ### The whole machine -/

/-- 93_implementation_defined.md section 2: every state has a next state. -/
def Obligations.EveryStepAnswersNext : Prop := ∀ s : State, Safe s

/-- 10_state.md section 7: every step from a state that meets the invariants gives one that does. -/
def Obligations.StepKeepsTheInvariants : Prop :=
  ∀ s t : State, s.arch.Inv → step s = .next t → t.arch.Inv

/-- The reset state meets the invariants. -/
def Obligations.ResetMeetsTheInvariants : Prop := State.reset.arch.Inv ∧ State.reset.arch.Represents []

/-- 10_state.md section 7, points 2, 3, 4, 6 and 7: if the core holds the hash state of a message, then after any cycle it
holds that of the message the cycle's event leaves. -/
def Obligations.StepKeepsTheMessage : Prop :=
  ∀ (s t : State) (msg : List Byte), s.arch.Represents msg → step s = .next t →
    match s.nextCycle.event s.cmdReady with
    | none => t.arch.Represents msg
    | some e => t.arch.Represents (e.message s.arch msg)

/-- 00_scope.md section 4, 70_reset_and_hazards.md section 5: a run of clock cycles, whatever the timing, leaves the
architectural state of the transaction-level run of its reset edges and accepted words, in order. The clause on cmd_ready
follows the bits `rise` of the cycles, the model's own form of the open timing (DESIGN CHOICE, log 3), and the list of
cycles is the model's own too (log 2). -/
def Obligations.CycleRunsAreTransactionRuns : Prop :=
  ∀ s : State, ∃ t : State, Host.Core.run Sys2Proof.core s.schedule.length s = .next t ∧
    t.arch = runEvents s.arch (eventsOf s.cmdReady s.schedule) ∧
    t.cmdReady = readyAfter s.cmdReady s.schedule ∧ t.schedule = []

/-- 40_accumulator.md section 5: after INIT, any two sequences of UPDATEs that carry the same bytes leave the same state,
with or without a FINAL after them. -/
def Obligations.ChunkingDoesNotMatter : Prop :=
  ∀ (is js : List Instr) (s : State), (∀ i ∈ is, i.isUpdate = true) → (∀ j ∈ js, j.isUpdate = true) →
    is.flatMap Instr.bytes = js.flatMap Instr.bytes →
    execAll (.init :: is) s = execAll (.init :: js) s ∧
    execAll (.init :: is ++ [.final]) s = execAll (.init :: js ++ [.final]) s

/-- 40_accumulator.md section 5: INIT, UPDATEs over the bytes of a message in any chunking, and FINAL leave DONE = 1, ERR = 0,
LEN the message's bits modulo 2^64, PEND empty and STATE the MD5 of the message. From the reset state INIT is not needed. -/
def Obligations.HashOfAMessageIsItsMd5 : Prop :=
  ∀ (is : List Instr) (s : State) (msg : List Byte), (∀ i ∈ is, i.isUpdate = true) → msg = is.flatMap Instr.bytes →
    execAll (.init :: is ++ [.final]) s =
      .next { s with arch := ⟨md5Words msg, [], BitVec.ofNat 64 (8 * msg.length), true, false, .none⟩ } ∧
    execAll (is ++ [.final]) State.reset =
      .next { State.reset with arch := ⟨md5Words msg, [], BitVec.ofNat 64 (8 * msg.length), true, false, .none⟩ }

/-- 30_encoding.md section 6 with 40_accumulator.md section 5: the host that drives the expansion of HASH over the command
port, each command holding the core for a number of cycles of its own, ends with cmd_ready = 1 and the MD5 of the bytes in
the digest. The cycles and their bits `rise` are the model's own form of the host and of the open timing (logs 2 and 3). -/
def Obligations.HashProgramEndsInTheDigest : Prop :=
  ∀ (bs : List Nat) (ws : List PortWord) (waits : Nat → Nat) (s : State), AsmOp.expand (.hash bs) = some ws →
    s.cmdReady = true → s.schedule = driveWords waits ws →
    ∃ t : State, Host.Core.run Sys2Proof.core s.schedule.length s = .next t ∧ t.cmdReady = true ∧ t.arch.done = true ∧
      t.arch.err = false ∧ t.arch.digest = digestBytes (md5Words (bs.map (BitVec.ofNat 8)))

/-- 30_encoding.md section 6: PUSH expands to UPDATEs that carry its bytes in order, four to each but the last, at least one
command; an empty PUSH is UPDATE with N = 0. -/
def Obligations.PushCarriesItsBytes : Prop :=
  ∀ bs : List Byte,
    (∀ i ∈ pushInstrs bs, i.isUpdate = true) ∧ (pushInstrs bs).flatMap Instr.bytes = bs ∧
    (pushInstrs bs).length = max 1 ((bs.length + 3) / 4) ∧
    (∀ i ∈ (pushInstrs bs).dropLast, i.bytes.length = 4) ∧ (bs = [] → pushInstrs bs = [.updateN0])

/-- 10_state.md section 1: a cycle changes the state register only by a reset edge, or by an accepted INIT, an UPDATE that
completes a block or a FINAL, the last two with ERR = 0 and DONE = 0. -/
def Obligations.OnlyListedEventsWriteTheStateRegister : Prop :=
  ∀ s t : State, s.arch.pend.length < 64 → step s = .next t → t.arch.regs ≠ s.arch.regs →
    s.nextCycle.event s.cmdReady = some .reset ∨
    ∃ (w : DWord) (i : Instr), s.nextCycle.event s.cmdReady = some (.accepted w) ∧ decodeCommand w = .ok i ∧
      (i = .init ∨
       (i.isUpdate = true ∧ s.arch.err = false ∧ s.arch.done = false ∧ 64 ≤ s.arch.pend.length + i.bytes.length) ∨
       (i = .final ∧ s.arch.err = false ∧ s.arch.done = false))

/-- 10_state.md section 3: DONE rises only by an accepted FINAL with ERR = 0, and falls only by a reset edge or an accepted
INIT. -/
def Obligations.DoneIsSetOnlyByFinal : Prop :=
  ∀ s t : State, step s = .next t →
    (s.arch.done = false → t.arch.done = true →
      ∃ w, s.nextCycle.event s.cmdReady = some (.accepted w) ∧ decodeCommand w = .ok .final ∧ s.arch.err = false) ∧
    (s.arch.done = true → t.arch.done = false →
      s.nextCycle.event s.cmdReady = some .reset ∨
      ∃ w, s.nextCycle.event s.cmdReady = some (.accepted w) ∧ decodeCommand w = .ok .init)

/-- 10_state.md section 3, 60_exceptions.md section 4: ERR is sticky and ECODE names the first error: both change only when
ERR goes from 0 to 1, or by a reset edge or an accepted INIT, which clear them. -/
def Obligations.FirstErrorIsKept : Prop :=
  ∀ s t : State, step s = .next t →
    (t.arch.err = s.arch.err ∧ t.arch.ecode = s.arch.ecode) ∨
    (s.arch.err = false ∧ t.arch.err = true ∧ t.arch.ecode ≠ .none ∧
      t.arch.regs = s.arch.regs ∧ t.arch.pend = s.arch.pend ∧ t.arch.len = s.arch.len ∧ t.arch.done = s.arch.done) ∨
    ((s.nextCycle.event s.cmdReady = some .reset ∨
        ∃ w, s.nextCycle.event s.cmdReady = some (.accepted w) ∧ decodeCommand w = .ok .init) ∧
      t.arch.err = false ∧ t.arch.ecode = .none)

/-- 10_state.md section 2, 40_accumulator.md section 5: over a cycle, LEN is cleared by a reset edge or an accepted INIT, grows
by 8 per byte of an accepted UPDATE that takes effect, modulo 2^64 and with no error, and is otherwise unchanged. -/
def Obligations.LengthCountsAcceptedBytesModulo : Prop :=
  ∀ s t : State, step s = .next t →
    (s.nextCycle.event s.cmdReady = some .reset → t.arch.len = 0) ∧
    (∀ w i, s.nextCycle.event s.cmdReady = some (.accepted w) → decodeCommand w = .ok i →
      (i = .init → t.arch.len = 0) ∧
      (i.isUpdate = true → s.arch.err = false → s.arch.done = false →
        t.arch.err = false ∧ t.arch.len.toNat = (s.arch.len.toNat + 8 * i.bytes.length) % 2 ^ 64) ∧
      (i ≠ .init → (i.isUpdate = true → s.arch.err = true ∨ s.arch.done = true) → t.arch.len = s.arch.len)) ∧
    ((s.nextCycle.event s.cmdReady = none ∨
        ∃ w r, s.nextCycle.event s.cmdReady = some (.accepted w) ∧ decodeCommand w = .error r) →
      t.arch.len = s.arch.len)
end

