-- ==== Sys2Proof/Laws/Encoding.lean ====
section
/-! SUPPORT. The lanes and the low half of a command word put together by the encoder. -/

namespace Sys2Proof

/-- A lane holds no bit of the low half of the word. -/
theorem inLane_low (k : Nat) (b : Byte) : inLane k b &&& 0x00000000FFFFFFFF#64 = 0 := by
  ext i hi
  rw [BitVec.getElem_and]
  by_cases h : i < 32
  · simp [inLane, show i < 32 + 8 * k by omega]
  · have high : ∀ j : Fin 64, ¬ j.val < 32 → (0x00000000FFFFFFFF#64).getLsbD j.val = false := by decide
    have : (0x00000000FFFFFFFF#64)[i] = false := by
      rw [← BitVec.getLsbD_eq_getElem]
      exact high ⟨i, hi⟩ h
    simp [this]

theorem lane_or (k : Nat) (x y : DWord) : lane k (x ||| y) = lane k x ||| lane k y := BitVec.extractLsb'_or

/-- A lane reads back the byte put in it. -/
theorem lane_inLane (k : Nat) (b : Byte) (hk : k < 4) : lane k (inLane k b) = b := by
  ext i hi
  simp [lane, inLane, show 32 + 8 * k + i < 64 by omega, hi]

/-- A lane holds nothing of a byte put in another. -/
theorem lane_inLane_ne (j k : Nat) (b : Byte) (hj : j < 4) (hjk : j ≠ k) : lane j (inLane k b) = 0 := by
  ext i hi
  simp [lane, inLane, show 32 + 8 * j + i < 64 by omega]
  intro h
  apply BitVec.getLsbD_of_ge
  omega

/-- Adding a lane to a word leaves the bits under the table's mask. -/
theorem inLane_or_masked (k : Nat) (b : Byte) (w : DWord) :
    (inLane k b ||| w) &&& 0x00000000FFFFFFFF#64 = w &&& 0x00000000FFFFFFFF#64 := by
  rw [BitVec.and_or_distrib_right, inLane_low]
  simp

/-! ### The decoder, said once -/

/-- Every word is INIT, FINAL, an UPDATE of its first N lanes, or illegal, by its fields. -/
theorem decodeCommand_cases (w : DWord) :
    (decodeCommand w = .ok .init ∧ rsvField w = 0 ∧ opField w = 1 ∧ countField w = 0) ∨
    (decodeCommand w = .ok .final ∧ rsvField w = 0 ∧ opField w = 3 ∧ countField w = 0) ∨
    (∃ i, decodeCommand w = .ok i ∧ i.isUpdate = true ∧
      i.bytes = (List.range (countField w).toNat).map (fun k => lane k w) ∧
      rsvField w = 0 ∧ opField w = 2 ∧ (countField w).toNat ≤ 4) ∨
    ((∃ r, decodeCommand w = .error r) ∧
      ¬(rsvField w = 0 ∧ opField w = 1 ∧ countField w = 0) ∧
      ¬(rsvField w = 0 ∧ opField w = 3 ∧ countField w = 0) ∧
      ¬(rsvField w = 0 ∧ opField w = 2 ∧ (countField w).toNat ≤ 4)) := by
  unfold decodeCommand
  split
  · right; right; right; simp_all
  · rename_i hrsv
    have hrsv : rsvField w = 0 := by simpa using hrsv
    split
    · split <;> simp_all
    · split
      · rename_i hop
        rcases hc : (countField w).toNat with _ | _ | _ | _ | _ | c
        · exact .inr (.inr (.inl ⟨_, rfl, rfl, rfl, hrsv, hop, by omega⟩))
        · exact .inr (.inr (.inl ⟨_, rfl, rfl, rfl, hrsv, hop, by omega⟩))
        · exact .inr (.inr (.inl ⟨_, rfl, rfl, rfl, hrsv, hop, by omega⟩))
        · exact .inr (.inr (.inl ⟨_, rfl, rfl, rfl, hrsv, hop, by omega⟩))
        · exact .inr (.inr (.inl ⟨_, rfl, rfl, rfl, hrsv, hop, by omega⟩))
        · refine .inr (.inr (.inr ⟨⟨_, rfl⟩, ?_, ?_, by omega⟩)) <;> simp_all
      · split
        · split <;> simp_all
        · simp_all

end Sys2Proof
end

