-- ==== Sys2Proof/Laws/State.lean ====
section
/-! SUPPORT. One lemma per field per update of State, each true by definition. -/

namespace Sys2Proof.Machine

@[simp] theorem State.withArch_arch (s : State) (a : Arch) : (s.withArch a).arch = a := rfl
@[simp] theorem State.withArch_cmdReady (s : State) (a : Arch) : (s.withArch a).cmdReady = s.cmdReady := rfl
@[simp] theorem State.withArch_rdData (s : State) (a : Arch) : (s.withArch a).rdData = s.rdData := rfl
@[simp] theorem State.withArch_draws (s : State) (a : Arch) : (s.withArch a).draws = s.draws := rfl
@[simp] theorem State.withArch_schedule (s : State) (a : Arch) : (s.withArch a).schedule = s.schedule := rfl

@[simp] theorem State.withReady_arch (s : State) (r : Bool) : (s.withReady r).arch = s.arch := rfl
@[simp] theorem State.withReady_cmdReady (s : State) (r : Bool) : (s.withReady r).cmdReady = r := rfl
@[simp] theorem State.withReady_rdData (s : State) (r : Bool) : (s.withReady r).rdData = s.rdData := rfl
@[simp] theorem State.withReady_draws (s : State) (r : Bool) : (s.withReady r).draws = s.draws := rfl
@[simp] theorem State.withReady_schedule (s : State) (r : Bool) : (s.withReady r).schedule = s.schedule := rfl

@[simp] theorem State.withRdData_arch (s : State) (v : Word) : (s.withRdData v).arch = s.arch := rfl
@[simp] theorem State.withRdData_cmdReady (s : State) (v : Word) : (s.withRdData v).cmdReady = s.cmdReady := rfl
@[simp] theorem State.withRdData_rdData (s : State) (v : Word) : (s.withRdData v).rdData = v := rfl
@[simp] theorem State.withRdData_draws (s : State) (v : Word) : (s.withRdData v).draws = s.draws := rfl
@[simp] theorem State.withRdData_schedule (s : State) (v : Word) : (s.withRdData v).schedule = s.schedule := rfl

@[simp] theorem State.withSchedule_arch (s : State) (cs : List Cycle) : (s.withSchedule cs).arch = s.arch := rfl
@[simp] theorem State.withSchedule_cmdReady (s : State) (cs : List Cycle) : (s.withSchedule cs).cmdReady = s.cmdReady :=
  rfl
@[simp] theorem State.withSchedule_rdData (s : State) (cs : List Cycle) : (s.withSchedule cs).rdData = s.rdData := rfl
@[simp] theorem State.withSchedule_draws (s : State) (cs : List Cycle) : (s.withSchedule cs).draws = s.draws := rfl
@[simp] theorem State.withSchedule_schedule (s : State) (cs : List Cycle) : (s.withSchedule cs).schedule = cs := rfl

@[simp] theorem State.drawRdData_arch (s : State) : s.drawRdData.arch = s.arch := rfl
@[simp] theorem State.drawRdData_cmdReady (s : State) : s.drawRdData.cmdReady = s.cmdReady := rfl
@[simp] theorem State.drawRdData_rdData (s : State) : s.drawRdData.rdData = Config.freeRdData s.draws := rfl
@[simp] theorem State.drawRdData_draws (s : State) : s.drawRdData.draws = s.draws + 1 := rfl
@[simp] theorem State.drawRdData_schedule (s : State) : s.drawRdData.schedule = s.schedule := rfl

@[simp] theorem State.withArch_self (s : State) : s.withArch s.arch = s := rfl
@[simp] theorem State.withReady_self (s : State) : s.withReady s.cmdReady = s := rfl
@[simp] theorem State.withSchedule_self (s : State) : s.withSchedule s.schedule = s := rfl

end Sys2Proof.Machine
end

