-- ==== Sys2Proof/Laws/Ops.lean ====
section
/-! SUPPORT. What each shared operation can do, said once. -/

namespace Sys2Proof.Machine

@[simp] theorem andThen_next (s : State) (k : State → Host.Outcome State Fault Refusal) :
    andThen (.next s) k = k s := rfl

/-- A sequence answers a next state only through a next state of its first part. -/
theorem andThen_eq_next {o : Host.Outcome State Fault Refusal} {k : State → Host.Outcome State Fault Refusal}
    {t : State} (h : andThen o k = .next t) : ∃ s, o = .next s ∧ k s = .next t := by
  cases o with
  | next s => exact ⟨s, rfl, h⟩
  | fault r => cases r
  | refused r => cases h

/-! ### Errors -/

theorem Arch.raise_of_err {a : Arch} (code : ErrorCode) (h : a.err = true) : a.raise code = a := by
  simp [Arch.raise, h]

theorem Arch.raise_of_no_err {a : Arch} (code : ErrorCode) (h : a.err = false) :
    a.raise code = { a with err := true, ecode := code } := by
  simp [Arch.raise, h]

@[simp] theorem Arch.raise_regs (a : Arch) (code : ErrorCode) : (a.raise code).regs = a.regs := by
  unfold Arch.raise; split <;> rfl
@[simp] theorem Arch.raise_pend (a : Arch) (code : ErrorCode) : (a.raise code).pend = a.pend := by
  unfold Arch.raise; split <;> rfl
@[simp] theorem Arch.raise_len (a : Arch) (code : ErrorCode) : (a.raise code).len = a.len := by
  unfold Arch.raise; split <;> rfl
@[simp] theorem Arch.raise_done (a : Arch) (code : ErrorCode) : (a.raise code).done = a.done := by
  unfold Arch.raise; split <;> rfl
@[simp] theorem Arch.raise_err (a : Arch) (code : ErrorCode) : (a.raise code).err = true := by
  unfold Arch.raise; split <;> simp_all

theorem Arch.guarded_of_err {a : Arch} (code : ErrorCode) (f : Arch → Arch) (h : a.err = true) :
    a.guarded code f = a := by
  simp [Arch.guarded, h]

theorem Arch.guarded_of_done {a : Arch} (code : ErrorCode) (f : Arch → Arch) (h : a.err = false) (hd : a.done = true) :
    a.guarded code f = a.raise code := by
  simp [Arch.guarded, h, hd]

theorem Arch.guarded_of_active {a : Arch} (code : ErrorCode) (f : Arch → Arch) (h : a.err = false)
    (hd : a.done = false) : a.guarded code f = f a := by
  simp [Arch.guarded, h, hd]

/-! ### Block accumulator -/

/-- A byte that does not complete a block only joins PEND. -/
theorem Arch.push_of_room {a : Arch} (x : Byte) (h : a.pend.length + 1 ≠ 64) :
    a.push x = { a with pend := a.pend ++ [x] } := by
  simp [Arch.push, h]

/-- A byte that completes a block has it compressed and PEND emptied. -/
theorem Arch.push_of_full {a : Arch} (x : Byte) (h : a.pend.length + 1 = 64) :
    a.push x = { a with regs := compress a.regs (a.pend ++ [x]), pend := [] } := by
  simp [Arch.push, h]

@[simp] theorem Arch.absorb_len (a : Arch) (x : Byte) : (a.absorb x).len = a.len + 8 := by
  unfold Arch.absorb Arch.push; split <;> rfl
@[simp] theorem Arch.absorb_done (a : Arch) (x : Byte) : (a.absorb x).done = a.done := by
  unfold Arch.absorb Arch.push; split <;> rfl
@[simp] theorem Arch.absorb_err (a : Arch) (x : Byte) : (a.absorb x).err = a.err := by
  unfold Arch.absorb Arch.push; split <;> rfl
@[simp] theorem Arch.absorb_ecode (a : Arch) (x : Byte) : (a.absorb x).ecode = a.ecode := by
  unfold Arch.absorb Arch.push; split <;> rfl

/-- PEND stays below a block. -/
theorem Arch.absorb_pend_lt {a : Arch} (x : Byte) (h : a.pend.length < 64) : (a.absorb x).pend.length < 64 := by
  unfold Arch.absorb Arch.push
  split
  · simp
  · rename_i hne
    simp at hne ⊢
    omega

@[simp] theorem Arch.absorbAll_nil (a : Arch) : a.absorbAll [] = a := rfl
@[simp] theorem Arch.absorbAll_cons (a : Arch) (x : Byte) (bs : List Byte) :
    a.absorbAll (x :: bs) = (a.absorb x).absorbAll bs := rfl
theorem Arch.absorbAll_append (a : Arch) (bs cs : List Byte) :
    a.absorbAll (bs ++ cs) = (a.absorbAll bs).absorbAll cs := by
  simp [Arch.absorbAll, List.foldl_append]

@[simp] theorem Arch.absorbAll_done (a : Arch) (bs : List Byte) : (a.absorbAll bs).done = a.done := by
  induction bs generalizing a with
  | nil => rfl
  | cons x bs ih => rw [Arch.absorbAll_cons, ih, Arch.absorb_done]
@[simp] theorem Arch.absorbAll_err (a : Arch) (bs : List Byte) : (a.absorbAll bs).err = a.err := by
  induction bs generalizing a with
  | nil => rfl
  | cons x bs ih => rw [Arch.absorbAll_cons, ih, Arch.absorb_err]
@[simp] theorem Arch.absorbAll_ecode (a : Arch) (bs : List Byte) : (a.absorbAll bs).ecode = a.ecode := by
  induction bs generalizing a with
  | nil => rfl
  | cons x bs ih => rw [Arch.absorbAll_cons, ih, Arch.absorb_ecode]

/-! ### Padding engine -/

@[simp] theorem zeros_length (k : Nat) : (zeros k).length = k := by simp [zeros]
@[simp] theorem le64bytes_length (v : DWord) : (le64bytes v).length = 8 := rfl
@[simp] theorem le32bytes_length (w : Word) : (le32bytes w).length = 4 := rfl
@[simp] theorem digestBytes_length (st : HashWords) : (digestBytes st).length = 16 := rfl

@[simp] theorem Arch.finish_len (a : Arch) : a.finish.len = a.len := rfl
@[simp] theorem Arch.finish_pend (a : Arch) : a.finish.pend = [] := rfl
@[simp] theorem Arch.finish_done (a : Arch) : a.finish.done = true := rfl
@[simp] theorem Arch.finish_err (a : Arch) : a.finish.err = a.err := rfl
@[simp] theorem Arch.finish_ecode (a : Arch) : a.finish.ecode = a.ecode := rfl

@[simp] theorem compressBlocks_zero (st : HashWords) (bs : List Byte) : compressBlocks 0 st bs = st := rfl
theorem compressBlocks_succ (n : Nat) (st : HashWords) (bs : List Byte) :
    compressBlocks (n + 1) st bs = compressBlocks n (compress st (bs.take 64)) (bs.drop 64) := rfl

/-! ### Rounds -/

/-- `j + k` rounds are `j` rounds and then `k` more. -/
theorem rounds_add (m : List Word) (i j k : Nat) (w : WorkRegs) :
    rounds m i (j + k) w = rounds m (i + j) k (rounds m i j w) := by
  induction j generalizing i w with
  | zero => simp [rounds]
  | succ j ih =>
    rw [Nat.succ_add, rounds, ih, rounds]
    congr 1
    omega

/-! ### Read port -/

/-- A read changes `rd_data`, and the draw counter when `cmd_ready = 0`; nothing else. -/
theorem State.sample_of_ready {s : State} (v : Word) (h : s.cmdReady = true) : s.sample v = s.withRdData v := by
  simp [State.sample, h]
theorem State.sample_of_busy {s : State} (v : Word) (h : s.cmdReady = false) : s.sample v = s.drawRdData := by
  simp [State.sample, h]
@[simp] theorem State.sample_arch (s : State) (v : Word) : (s.sample v).arch = s.arch := by
  unfold State.sample; split <;> rfl
@[simp] theorem State.sample_cmdReady (s : State) (v : Word) : (s.sample v).cmdReady = s.cmdReady := by
  unfold State.sample; split <;> rfl
@[simp] theorem State.sample_schedule (s : State) (v : Word) : (s.sample v).schedule = s.schedule := by
  unfold State.sample; split <;> rfl

end Sys2Proof.Machine
end

