-- ==== Sys2Proof/Laws/Exec.lean ====
section
/-! SUPPORT. What executing an instruction and running a cycle can do, said once. -/

namespace Sys2Proof.Machine

/-- An UPDATE is the shared operation on its bytes. -/
theorem exec_update {i : Instr} (h : i.isUpdate = true) (s : State) : exec i s = .next (s.update i.bytes) := by
  cases i <;> first | rfl | cases h

/-- A read samples some word and does nothing else. -/
theorem exec_read {i : Instr} (h : i.isRead = true) (s : State) : ∃ v, exec i s = .next (s.sample v) := by
  cases i <;> first | exact ⟨_, rfl⟩ | cases h

/-- A command rewrites the architectural tuple and does nothing else. -/
theorem exec_command {i : Instr} (h : i.isRead = false) (s : State) : ∃ a, exec i s = .next (s.withArch a) := by
  cases i <;> first | exact ⟨_, rfl⟩ | cases h

theorem decodeRead_isRead (a : BitVec 3) : (decodeRead a).isRead = true := by
  unfold decodeRead; split <;> rfl

/-- The command port carries no read. -/
theorem decodeCommand_not_read {w : DWord} {i : Instr} (h : decodeCommand w = .ok i) : i.isRead = false := by
  unfold decodeCommand decodeUpdate at h
  repeat' split at h
  all_goals first | (cases h; rfl) | exact absurd h (by simp)

/-- An accepted word rewrites the architectural tuple and does nothing else. -/
theorem execWord_eq (w : DWord) (s : State) : ∃ a, execWord w s = .next (s.withArch a) := by
  unfold execWord
  split
  · exact exec_command (decodeCommand_not_read ‹_›) s
  · exact ⟨_, rfl⟩

/-- The read stage of a cycle leaves everything but `rd_data` and the draw counter. -/
theorem readStage_eq (c : Cycle) (s : State) :
    ∃ t, readStage c s = .next t ∧ t.arch = s.arch ∧ t.cmdReady = s.cmdReady ∧ t.schedule = s.schedule := by
  unfold readStage
  split
  · exact ⟨s, rfl, rfl, rfl, rfl⟩
  · obtain ⟨v, hv⟩ := exec_read (decodeRead_isRead _) s
    exact ⟨_, hv, by simp, by simp, by simp⟩

/-- The edge of a cycle: a reset, an acceptance, or nothing but the rise of `cmd_ready`. -/
theorem edgeStage_reset {c : Cycle} (s : State) (h : c.rst = true) : edgeStage c s = .next (s.resetEdge c) := by
  simp [edgeStage, h]

theorem edgeStage_accept {c : Cycle} {s : State} {w : DWord} (h : c.rst = false) (hr : s.cmdReady = true)
    (hc : c.cmd = some w) : edgeStage c s = andThen (execWord w s) (fun t => .next (t.withReady false)) := by
  simp [edgeStage, h, hr, hc]

theorem edgeStage_none {c : Cycle} {s : State} (h : c.rst = false) (hr : s.cmdReady = true) (hc : c.cmd = none) :
    edgeStage c s = .next s := by
  simp [edgeStage, h, hr, hc]

theorem edgeStage_busy {c : Cycle} {s : State} (h : c.rst = false) (hr : s.cmdReady = false) :
    edgeStage c s = .next (s.withReady c.rise) := by
  simp [edgeStage, h, hr]

end Sys2Proof.Machine
end

