-- ==== Sys2Proof/Laws/PerInstr.lean ====
section
/-! SUPPORT. Facts about every instruction as syntax, one lemma per constructor. -/

namespace Sys2Proof.Laws.TableRow

/-- The canonical encoding of an instruction lies in the opcode-table row of the instruction: a command in its match and
mask, a read at its address. -/
def Statement (i : Instr) : Prop :=
  match encode i with
  | .cmd w => (commandRows.getD i.row ⟨0, 1⟩).accepts w = true
  | .rd a => i.row = 7 + a.toNat

theorem init : Statement .init := rfl
theorem updateN0 : Statement .updateN0 := rfl
theorem updateN1 (b0 : Byte) : Statement (.updateN1 b0) := by
  simp [Statement, encode, commandRows, Instr.row, CommandRow.accepts, inLane_or_masked]
theorem updateN2 (b0 b1 : Byte) : Statement (.updateN2 b0 b1) := by
  simp [Statement, encode, commandRows, Instr.row, CommandRow.accepts, inLane_or_masked, BitVec.or_assoc]
theorem updateN3 (b0 b1 b2 : Byte) : Statement (.updateN3 b0 b1 b2) := by
  simp [Statement, encode, commandRows, Instr.row, CommandRow.accepts, inLane_or_masked, BitVec.or_assoc]
theorem updateN4 (b0 b1 b2 b3 : Byte) : Statement (.updateN4 b0 b1 b2 b3) := by
  simp [Statement, encode, commandRows, Instr.row, CommandRow.accepts, inLane_or_masked, BitVec.or_assoc]
theorem final : Statement .final := rfl
theorem rdStatus : Statement .rdStatus := rfl
theorem rdDigest0 : Statement .rdDigest0 := rfl
theorem rdDigest1 : Statement .rdDigest1 := rfl
theorem rdDigest2 : Statement .rdDigest2 := rfl
theorem rdDigest3 : Statement .rdDigest3 := rfl
theorem rdLenLo : Statement .rdLenLo := rfl
theorem rdLenHi : Statement .rdLenHi := rfl
theorem rdRsvd7 : Statement .rdRsvd7 := rfl

end Sys2Proof.Laws.TableRow
end

