-- ==== Sys2Proof/Laws/Step.lean ====
section
/-! SUPPORT. What one step can do, said once: its read, its event, its handshake. -/

namespace Sys2Proof.Machine

/-- Sampling the read port: the value of the map while `cmd_ready = 1`, a free value while it is 0. -/
theorem exec_decodeRead (a : BitVec 3) (s : State) : exec (decodeRead a) s = .next (s.sample (s.arch.read a)) := by
  have h : ∀ n : Fin 8, exec (decodeRead (BitVec.ofFin n)) s = .next (s.sample (s.arch.read (BitVec.ofFin n))) := by
    intro n
    match n with
    | 0 | 1 | 2 | 3 | 4 | 5 | 6 | 7 => rfl
  exact h a.toFin

/-- What a state looks like after the read stage of a cycle. -/
def State.afterRead (c : Cycle) (s : State) : State :=
  match c.rd with
  | none => s.begin c
  | some a => (s.begin c).sample (s.arch.read a)

theorem readStage_begin (c : Cycle) (s : State) : readStage c (s.begin c) = .next (s.afterRead c) := by
  unfold readStage State.afterRead
  cases c.rd with
  | none => rfl
  | some a => exact exec_decodeRead a _

@[simp] theorem State.afterRead_arch (c : Cycle) (s : State) : (s.afterRead c).arch = s.arch := by
  unfold State.afterRead; split <;> simp [State.begin]
@[simp] theorem State.afterRead_cmdReady (c : Cycle) (s : State) :
    (s.afterRead c).cmdReady = (s.cmdReady && !c.rst) := by
  unfold State.afterRead; split <;> simp [State.begin]
@[simp] theorem State.afterRead_schedule (c : Cycle) (s : State) : (s.afterRead c).schedule = s.schedule := by
  unfold State.afterRead; split <;> simp [State.begin]

/-- A cycle is its read stage and then its edge. -/
theorem runCycle_eq (c : Cycle) (s : State) : runCycle c s = edgeStage c (s.afterRead c) := by
  simp [runCycle, readStage_begin]

/-- A step is one cycle on the state past it. -/
theorem step_eq (s : State) :
    step s = edgeStage s.nextCycle ((s.withSchedule s.schedule.tail).afterRead s.nextCycle) := by
  simp [step, runCycle_eq]

/-! ### Runs of the host's interface -/

theorem coreRun_succ (M : Host.Core) (n : Nat) {s t : M.State} (h : M.step s = .next t) :
    M.run (n + 1) s = M.run n t := by
  simp [Host.Core.run, h]

theorem coreRun_succ_eq_next (M : Host.Core) (n : Nat) {s u : M.State} (h : M.run (n + 1) s = .next u) :
    ∃ t, M.step s = .next t ∧ M.run n t = .next u := by
  rw [Host.Core.run] at h
  split at h
  · exact ⟨_, ‹_›, h⟩
  · cases h
  · cases h

/-- A run of n + 1 steps is a step and then a run of n. -/
theorem run_succ_of_step {s t : State} (n : Nat) (h : step s = .next t) :
    Host.Core.run Sys2Proof.core (n + 1) s = Host.Core.run Sys2Proof.core n t :=
  coreRun_succ Sys2Proof.core n h

/-- A run of n + k steps is a run of n and then one of k. -/
theorem run_add_of_run {s t : State} (n k : Nat) (h : Host.Core.run Sys2Proof.core n s = .next t) :
    Host.Core.run Sys2Proof.core (n + k) s = Host.Core.run Sys2Proof.core k t := by
  induction n generalizing s with
  | zero => cases h; rw [Nat.zero_add]
  | succ n ih =>
    obtain ⟨u, hu, hr⟩ := coreRun_succ_eq_next Sys2Proof.core n h
    rw [Nat.succ_add]
    exact (run_succ_of_step _ hu).trans (ih hr)

end Sys2Proof.Machine
end

