-- ==== Sys2Proof/Tests/Slice0.lean ====
section
/-! SUPPORT. Tests against the spec's own words and vectors (95_test_vectors.md), and a witness for the hypotheses of each
statement. -/

namespace Sys2Proof.Tests

open Sys2Proof.Machine

/-! ### Small states -/

/-- A core with cmd_ready = 1 and nothing scheduled. -/
def core1 (a : Arch) : State := ⟨a, true, 0, 0, []⟩

/-- After `UPDATE 'a', 'b', 'c'` from reset (STATUS 0x30). -/
def abcArch : Arch := ⟨iv, [0x61, 0x62, 0x63], 24, false, false, .none⟩

/-- The digest words of "abc" (V2). -/
def abcDigest : HashWords := ⟨0x98500190#32, 0xb04fd23c#32, 0x7d3f96d6#32, 0x727fe128#32⟩

/-- After `HASH "abc"` (STATUS 0x01). -/
def abcDone : Arch := ⟨abcDigest, [], 24, true, false, .none⟩

/-- After a second FINAL (STATUS 0x0b). -/
def abcPoisoned : Arch := { abcDone with err := true, ecode := .finalAfterFinal }

/-- A core with `p` pending zero bytes and a length that agrees with them. -/
def pendArch (p : Nat) : Arch := ⟨iv, zeros p, BitVec.ofNat 64 (8 * p), false, false, .none⟩

/-- The architectural state an outcome carries; the reset one where it carries none. -/
def archOf : Host.Outcome State Fault Refusal → Arch
  | .next s => s.arch
  | .fault _ => Arch.reset
  | .refused _ => Arch.reset

/-- What a read of an outcome's state sampled. -/
def dataOf : Host.Outcome State Fault Refusal → Word
  | .next s => s.rdData
  | .fault _ => 0
  | .refused _ => 0

/-! ### Decoding: words written out from 30_encoding.md R71, R73, R77 -/

/-- R71: OP 3:0, N 6:4, RSV 31:7, lanes 39:32, 47:40, 55:48, 63:56, written as bit strings. -/
theorem test_decode_init_bits :
    decodeCommand 0b00000000_00000000_00000000_00000000_0000000000000000000000000_000_0001#64 = .ok .init := by decide
theorem test_decode_updateN0_bits :
    decodeCommand 0b00000000_00000000_00000000_00000000_0000000000000000000000000_000_0010#64 = .ok .updateN0 := by decide
theorem test_decode_updateN1_bits :
    decodeCommand 0b00000000_00000000_00000000_10000001_0000000000000000000000000_001_0010#64 = .ok (.updateN1 0x81) := by
  decide
theorem test_decode_updateN2_bits :
    decodeCommand 0b00000000_00000000_00000010_00000001_0000000000000000000000000_010_0010#64 = .ok (.updateN2 1 2) := by
  decide
theorem test_decode_updateN3_bits :
    decodeCommand 0b00000000_00000011_00000010_00000001_0000000000000000000000000_011_0010#64 = .ok (.updateN3 1 2 3) := by
  decide
theorem test_decode_updateN4_bits :
    decodeCommand 0b10000100_00000011_00000010_00000001_0000000000000000000000000_100_0010#64 =
      .ok (.updateN4 1 2 3 0x84) := by decide
theorem test_decode_final_bits :
    decodeCommand 0b00000000_00000000_00000000_00000000_0000000000000000000000000_000_0011#64 = .ok .final := by decide
theorem test_decode_reads :
    [0b000#3, 0b001#3, 0b010#3, 0b011#3, 0b100#3, 0b101#3, 0b110#3, 0b111#3].map decodeRead =
      [.rdStatus, .rdDigest0, .rdDigest1, .rdDigest2, .rdDigest3, .rdLenLo, .rdLenHi, .rdRsvd7] := by decide

/-- V17, the legal rows with ignored DATA. -/
theorem test_decode_ignored_data :
    decodeCommand 0xdeadbeef00000001#64 = .ok .init ∧ decodeCommand 0xffffff6100000012#64 = .ok (.updateN1 0x61) ∧
    decodeCommand 0xffffffff00000003#64 = .ok .final := by decide
/-- V17, the illegal rows, each with the reason of R75. -/
theorem test_decode_illegal :
    decodeCommand 0x0000000000000011#64 = .error .countNotZero ∧ decodeCommand 0x0000000000000023#64 = .error .countNotZero ∧
    decodeCommand 0x0000000000000081#64 = .error .reservedBitsSet ∧
    decodeCommand 0x0000000080000003#64 = .error .reservedBitsSet ∧
    decodeCommand 0xffffffffffffffff#64 = .error .reservedBitsSet ∧
    decodeCommand 0x0000000000000052#64 = .error .countTooLarge ∧ decodeCommand 0x0000000000000072#64 = .error .countTooLarge ∧
    decodeCommand 0x0000000000000000#64 = .error .undefinedOp ∧ decodeCommand 0x0000000000000004#64 = .error .undefinedOp ∧
    decodeCommand 0x000000000000000f#64 = .error .undefinedOp := by decide
/-- P1 and P5: canonical words of the assembler table (R79). -/
theorem test_encode_words :
    encode (.updateN3 0x61 0x62 0x63) = .cmd 0x0063626100000032#64 ∧
    encode (.updateN4 0x6f 0x72 0x6c 0x64) = .cmd 0x646c726f00000042#64 ∧ encode .final = .cmd 3#64 ∧
    encode .rdDigest3 = .rd 0b100#3 := by decide
/-- opcode_table.json rows through the host's entry point. -/
theorem test_table_words :
    decodeTableWord 64 0x32 = some (.updateN3 0 0 0) ∧ decodeTableWord 32 0x1 = some .init ∧
    decodeTableWord 8 0b001 = some .rdDigest0 ∧ decodeTableWord 8 0b1000 = none ∧ decodeTableWord 64 (2 ^ 64) = none := by
  decide

/-! ### Well-formedness: an ill-formed term for each check -/

theorem smoke_word_op_zero : legalWord 0x0000000000000000#64 = false := by decide
theorem smoke_word_op_high : legalWord 0x000000000000000f#64 = false := by decide
theorem smoke_word_reserved_bit : legalWord 0x0000000000000081#64 = false := by decide
theorem smoke_word_init_count : legalWord 0x0000000000000011#64 = false := by decide
theorem smoke_word_update_count : legalWord 0x0000000000000052#64 = false := by decide
theorem smoke_word_final_count : legalWord 0x0000000000000023#64 = false := by decide
theorem smoke_word_legal : legalWord 0x6463626100000042#64 = true := by decide
theorem smoke_read_address : legalReadAddr 8 = false ∧ legalReadAddr 7 = true := by decide
theorem smoke_instr : Instr.wf (.updateN4 1 2 3 255) = true := by decide
theorem smoke_asm_byte : AsmOp.wf (.update [256]) = false ∧ AsmOp.wf (.push [300]) = false ∧ AsmOp.wf (.hash [256]) = false := by
  decide
theorem smoke_asm_count : AsmOp.wf (.update [1, 2, 3, 4, 5]) = false := by decide
theorem smoke_asm_raw : AsmOp.wf (.raw (2 ^ 64)) = false := by decide
theorem smoke_asm_read : AsmOp.wf (.rd 8) = false := by decide

/-! ### The assembler (R79, R80) -/

theorem test_asm_update :
    assembleLine ['u', 'p', 'd', 'a', 't', 'e', ' ', '0', 'x', '6', '1', ',', ' ', '9', '8', ',', '\'', 'c', '\'', ' ', ';', 'x'] =
      some [.cmd 0x0063626100000032#64] := by decide
theorem test_asm_raw : assembleLine ['.', 'c', 'm', 'd', ' ', '0', 'x', '5', '2'] = some [.cmd 0x52#64] := by decide
theorem test_asm_reads :
    assembleLine ['R', 'D', ' ', 'L', 'E', 'N', 'H', 'I'] = some [.rd 6] ∧ assembleLine ['R', 'D', ' ', '7'] = some [.rd 7] ∧
    assembleLine ['R', 'D', ' ', '6'] = none := by decide
theorem test_asm_hash :
    assembleLine (['H', 'A', 'S', 'H', ' '] ++ [Char.ofNat 34, 'a', 'b', 'c', Char.ofNat 34]) =
      some [.cmd 1#64, .cmd 0x0063626100000032#64, .cmd 3#64] := by decide
theorem test_asm_push_empty : assembleLine ['P', 'U', 'S', 'H'] = some [.cmd 2#64] := by decide
/-- V3: the document's rendering example. -/
theorem test_hex_render :
    hexRender [0x5e, 0xb6, 0x3b, 0xbb] = ['5', 'e', 'b', '6', '3', 'b', 'b', 'b'] := by decide

/-! ### The compression function: V10 to V15 -/

theorem test_functions :
    funF 0xaaaaaaaa#32 0xcccccccc#32 0xf0f0f0f0#32 = 0xd8d8d8d8#32 ∧ funG 0xaaaaaaaa#32 0xcccccccc#32 0xf0f0f0f0#32 = 0xacacacac#32 ∧
    funH 0xaaaaaaaa#32 0xcccccccc#32 0xf0f0f0f0#32 = 0x96969696#32 ∧ funI 0xaaaaaaaa#32 0xcccccccc#32 0xf0f0f0f0#32 = 0x63636363#32 := by
  decide
theorem test_rotl : rotl32 0x80000001#32 22 = 0x00600000#32 ∧ rotl32 0x57ce06d8#32 7 = 0xe7036c2b#32 := by decide
/-- V12: MIDX, SHIFT and ROM_T at the ends of the groups. -/
theorem test_schedule :
    [0, 15, 16, 31, 32, 47, 48, 55, 63].map (fun i => (midx i, shift i, romT i)) =
      [(0, 7, 0xd76aa478#32), (15, 22, 0x49b40821#32), (1, 5, 0xf61e2562#32), (12, 20, 0x8d2a4c8a#32), (5, 4, 0xfffa3942#32),
       (2, 23, 0xc4ac5665#32), (0, 6, 0xf4292244#32), (1, 21, 0x85845dd1#32), (9, 21, 0xeb86d391#32)] := by decide +kernel
/-- V13: round 17 (group 1) and round 49 (group 3) of the padded "abc" block. -/
theorem test_round_17 :
    round 17 ⟨0xa1051895#32, 0x3e9e9126#32, 0x72aff2e0#32, 0xe396856b#32⟩ (messageWords (pad [0x61, 0x62, 0x63] 24)) =
      ⟨0xe396856b#32, 0x4a1d804e#32, 0x3e9e9126#32, 0x72aff2e0#32⟩ := by decide +kernel
theorem test_round_49 :
    round 49 ⟨0x99d9679d#32, 0x7b201df8#32, 0x7beb9700#32, 0x8fae6399#32⟩ (messageWords (pad [0x61, 0x62, 0x63] 24)) =
      ⟨0x8fae6399#32, 0xf4e8e96e#32, 0x7b201df8#32, 0x7beb9700#32⟩ := by decide +kernel
/-- V14. -/
theorem test_compress_zero :
    compress ⟨0, 0, 0, 0⟩ (zeros 64) = ⟨0xf7cd1c97#32, 0xa5483681#32, 0x2b68d832#32, 0xf90ca639#32⟩ := by decide +kernel
theorem test_compress_counting :
    compress iv ((List.range 64).map (BitVec.ofNat 8)) = ⟨0x9144d9ca#32, 0xd901e4c9#32, 0x72fc5b38#32, 0x625ff51e#32⟩ := by
  decide +kernel
/-- V14 through a datapath of 5 rounds per clock, which does not divide 64 (R152). -/
theorem test_datapath :
    DatapathPhase.clocks 5 iv (messageWords (zeros 64)) 13 (.busy (Datapath.start iv)) =
      .done ⟨0x031f1dac#32, 0x6ea58ed0#32, 0x1fab67b7#32, 0x74317791#32⟩ := by decide +kernel
/-- V15: number of zeros and padded length on both sides of the threshold. -/
theorem test_padding :
    [0, 1, 54, 55, 56, 57, 62, 63].map (fun p => (padZeros p, (pad (zeros p) 0).length)) =
      [(55, 64), (54, 64), (1, 64), (0, 64), (63, 128), (62, 128), (57, 128), (56, 128)] := by decide
/-- V8: the trailing eight bytes. -/
theorem test_length_field : le64bytes 0x00000001000001c0#64 = [0xc0, 0x01, 0, 0, 0x01, 0, 0, 0] := by decide
/-- V5: 120 bytes of 'a', from the whole-message definition. -/
theorem test_md5_120 :
    hexRender (digestBytes (md5Words (List.replicate 120 0x61))) =
      ['5', 'f', '6', '1', 'c', '0', 'c', 'c', 'a', 'd', '4', 'c', 'a', 'c', '4', '4', 'c', '7', '5', 'f', 'f', '5', '0', '5', 'e',
       '1', 'f', '1', 'e', '5', '3', '7'] := by decide +kernel

/-! ### Commands -/

/-- R101's example: from DONE, ERR, ECODE 2. -/
theorem test_init : archOf (exec .init (core1 abcPoisoned)) = Arch.reset := by decide
/-- R102's example: UPDATE 'a','b','c' from reset. -/
theorem test_update_abc : archOf (exec (.updateN3 0x61 0x62 0x63) State.reset) = abcArch := by decide
theorem test_updateN0 : archOf (exec .updateN0 (core1 abcArch)) = abcArch := by decide
/-- V16a: the block completes and LEN wraps. -/
theorem test_updateN1_wrap :
    archOf (exec (.updateN1 0x61) (core1 ⟨iv, zeros 63, 0xfffffffffffffff8#64, false, false, .none⟩)) =
      ⟨⟨0xb3ea14dd#32, 0x00c13591#32, 0x6e320376#32, 0x107937d9#32⟩, [], 0, false, false, .none⟩ := by decide +kernel
/-- P4, command 6. -/
theorem test_updateN2 : (archOf (exec (.updateN2 0x61 0x62) State.reset)).pend = [0x61, 0x62] := by decide
/-- V16c: the boundary inside one UPDATE. -/
theorem test_updateN4_boundary :
    archOf (exec (.updateN4 1 2 3 4) (core1 ⟨iv, zeros 62, 0xfffffffffffffff0#64, false, false, .none⟩)) =
      ⟨⟨0x8e16cdd0#32, 0x5f65fe5e#32, 0x7e28385a#32, 0x20c4b7c6#32⟩, [3, 4], 0x10, false, false, .none⟩ := by decide +kernel
/-- R104's example. -/
theorem test_final_abc : archOf (exec .final (core1 abcArch)) = abcDone := by decide +kernel
/-- V16b: the wrapped length. -/
theorem test_final_wrapped :
    (archOf (exec .final (core1 ⟨⟨0xb3ea14dd#32, 0x00c13591#32, 0x6e320376#32, 0x107937d9#32⟩, [], 0, false, false, .none⟩))).regs =
      ⟨0x39967ee8#32, 0x6935396f#32, 0x4799e77f#32, 0xc726ec42#32⟩ := by decide +kernel
/-- P2: 56 pending bytes spill into a second block. -/
theorem test_final_two_blocks :
    (archOf (exec .final (core1 { pendArch 56 with pend := List.replicate 56 0x61 }))).regs =
      md5Words (List.replicate 56 0x61) := by decide +kernel

/-! ### Errors (V18): STATUS after one word -/

theorem test_update_after_final :
    (archOf (execWord 0x0000006400000012#64 (core1 abcDone))).status = 0x00000007#32 ∧
    (archOf (execWord 0x0000000000000002#64 (core1 abcDone))).status = 0x00000007#32 := by decide
theorem test_final_after_final : archOf (execWord 3#64 (core1 abcDone)) = abcPoisoned := by decide
theorem test_illegal_word :
    (archOf (execWord 0x52#64 (core1 abcDone))).status = 0x0000000f#32 ∧
    (archOf (execWord 0#64 (core1 abcArch))).status = 0x0000003e#32 ∧
    (archOf (execWord 0x11#64 (core1 abcArch))).status = 0x0000003e#32 := by decide
theorem test_poisoned :
    archOf (execWord 0x0000006400000012#64 (core1 abcPoisoned)) = abcPoisoned ∧
    archOf (execWord 4#64 (core1 abcPoisoned)) = abcPoisoned ∧ archOf (execWord 3#64 (core1 abcPoisoned)) = abcPoisoned := by
  decide

/-! ### Reads -/

theorem test_status : dataOf (exec .rdStatus (core1 abcArch)) = 0x00000030#32 ∧ abcPoisoned.status = 0x0000000b#32 := by decide
theorem test_digest_reads :
    dataOf (exec .rdDigest0 (core1 abcDone)) = 0x98500190#32 ∧ dataOf (exec .rdDigest1 (core1 abcDone)) = 0xb04fd23c#32 ∧
    dataOf (exec .rdDigest2 (core1 abcDone)) = 0x7d3f96d6#32 ∧ dataOf (exec .rdDigest3 (core1 abcDone)) = 0x727fe128#32 := by
  decide
theorem test_digest_hidden :
    [Instr.rdDigest0, .rdDigest1, .rdDigest2, .rdDigest3].map (fun i => dataOf (exec i (core1 abcArch))) = [0, 0, 0, 0] := by decide
theorem test_length_reads :
    dataOf (exec .rdLenLo (core1 { abcArch with len := 0x0123456789abcde8#64 })) = 0x89abcde8#32 ∧
    dataOf (exec .rdLenHi (core1 { abcArch with len := 0x0123456789abcde8#64 })) = 0x01234567#32 := by decide
theorem test_reserved_read : dataOf (exec .rdRsvd7 (core1 abcDone)) = 0 := by decide
/-- R190: digest bytes of "abc". -/
theorem test_digest_bytes :
    digestBytes abcDigest = [0x90, 0x01, 0x50, 0x98, 0x3c, 0xd2, 0x4f, 0xb0, 0xd6, 0x96, 0x3f, 0x7d, 0x28, 0xe1, 0x7f, 0x72] := by
  decide

/-! ### One clock cycle -/

/-- R235: the read of a cycle sees the state before the cycle's command. -/
theorem test_read_before_command :
    step { core1 abcArch with schedule := [⟨false, some 1#64, some 0, false⟩] } =
      .next ⟨Arch.reset, false, 0x00000030#32, 0, []⟩ := rfl
/-- R230: reset wins over a command, even with cmd_ready = 0. -/
theorem test_reset_edge :
    step { core1 abcPoisoned with cmdReady := false, schedule := [⟨true, some 3#64, none, false⟩] } =
      .next ⟨Arch.reset, false, 0, 0, []⟩ := rfl
/-- R233: no acceptance while cmd_ready = 0; the open timing lets it rise. -/
theorem test_busy_cycle :
    step { core1 abcArch with cmdReady := false, schedule := [⟨false, some 3#64, none, true⟩] } = .next (core1 abcArch) := rfl
/-- The host's probe: a placed word is the next instruction run, from reset. -/
theorem test_placed_word :
    step (State.reset.withFetchWord 64 0x0063626100000032) = .next { core1 abcArch with cmdReady := false } ∧
    step (State.reset.withFetchWord 8 0) = .next State.reset := ⟨rfl, rfl⟩

/-! ### Witnesses: concrete states and operands that meet a statement's hypotheses together -/

/-- A core about to see one cycle. -/
def before (a : Arch) (ready : Bool) (c : Cycle) : State := ⟨a, ready, 0, 0, [c]⟩

theorem witness_UnusedLanesAreIgnored :
    decodeCommand 0xffffff6100000012#64 = .ok (.updateN1 0x61) ∧
    (0x0000006100000012#64).extractLsb' 0 32 = (0xffffff6100000012#64).extractLsb' 0 32 ∧
    (0x0000006100000012#64).extractLsb' 32 8 = (0xffffff6100000012#64).extractLsb' 32 8 := by decide
theorem witness_LegalWordsAreTheTableRows : decodeCommand 0x42#64 = .ok (.updateN4 0 0 0 0) := by decide
theorem witness_CommandRowsDoNotOverlap :
    commandRows[3]? = some ⟨0x00000000FFFFFFFF#64, 0x22#64⟩ ∧ CommandRow.accepts ⟨0x00000000FFFFFFFF#64, 0x22#64⟩ 0x22#64 = true := by
  decide
/-- One illegal word for each clause, at the boundary: RSV bit 7, OP 4, INIT and FINAL with N = 1, UPDATE with N = 5. -/
theorem witness_IllegalWordsOnlyRaiseCodeThree :
    (0x81 / 128 % 2 ^ 25 ≠ 0) ∧ (4 % 16 ≠ 1 ∧ 4 % 16 ≠ 2 ∧ 4 % 16 ≠ 3) ∧ (0x11 % 16 = 1 ∧ 0x11 / 16 % 8 ≠ 0) ∧
    (0x13 % 16 = 3 ∧ 0x13 / 16 % 8 ≠ 0) ∧ (0x52 % 16 = 2 ∧ 4 < 0x52 / 16 % 8) ∧
    (before abcArch true ⟨false, some 0x52#64, none, false⟩).schedule = [⟨false, some 0x52#64, none, false⟩] ∧
    (before abcArch true ⟨false, some 0x52#64, none, false⟩).cmdReady = true := by decide
theorem witness_InitLoadsTheResetState : exec .init (core1 abcPoisoned) = .next State.reset := rfl
theorem witness_UpdateAbsorbsItsBytes :
    Instr.isUpdate (.updateN4 1 2 3 4) = true ∧ (pendArch 63).err = false ∧ (pendArch 63).done = false ∧
    (pendArch 63).pend.length < 64 := by decide
theorem witness_EmptyUpdateInPhaseActiveChangesNothing : (core1 abcArch).arch.done = false := by decide
/-- Both sides of the threshold of FINAL, and the two states it does not pad in. -/
theorem witness_FinalPadsAndCompresses :
    ((pendArch 55).err = false ∧ (pendArch 55).done = false ∧ (pendArch 55).pend.length = 55) ∧
    ((pendArch 56).err = false ∧ (pendArch 56).done = false ∧ (pendArch 56).pend.length = 56) ∧
    (abcDone.err = false ∧ abcDone.done = true) ∧ abcPoisoned.err = true := by decide
theorem witness_PaddingIsOneOrTwoBlocks :
    (zeros 55).length = 55 ∧ (zeros 56).length = 56 ∧ (zeros 63).length < 64 := by decide
theorem witness_ErrorsTouchOnlyErrAndEcode :
    Instr.isUpdate .updateN0 = true ∧ abcDone.err = false ∧ abcDone.done = true ∧ decodeCommand 0#64 = .error .undefinedOp ∧
    abcArch.err = false ∧ abcPoisoned.err = true := by decide
theorem witness_PoisonedCoreIgnoresAllButInit :
    abcPoisoned.err = true ∧ decodeCommand 3#64 ≠ .ok .init ∧ decodeCommand 1#64 = .ok .init := by decide
theorem witness_PoisonedCoreIsReset :
    (before abcPoisoned false ⟨true, none, none, false⟩).schedule = [⟨true, none, none, false⟩] := by decide
theorem witness_PoisonedCoreDigestStaysReadable :
    exec .final (core1 abcDone) = .next (core1 abcPoisoned) ∧
    exec (decodeRead 4) (core1 abcPoisoned) = .next { core1 abcPoisoned with rdData := 0x727fe128#32 } := ⟨rfl, rfl⟩
theorem witness_StatusReadPacksCountAndFlags :
    (core1 (pendArch 63)).cmdReady = true ∧ (core1 (pendArch 63)).arch.pend.length < 64 := by decide
theorem witness_StatusTakesItsLegalValuesOnly : abcPoisoned.Inv :=
  ⟨by decide, by decide, by decide, by decide, by decide, by decide⟩
theorem witness_reads_ready :
    (core1 abcDone).cmdReady = true ∧ (core1 abcArch).cmdReady = true ∧ abcDone.done = true ∧ abcArch.done = false ∧
    abcArch.len.toNat % 8 = 0 := by decide
/-- The error action between two digest reads, at the first and the last digest address. -/
theorem witness_DigestReadsShowTheStateOnlyWhenDone :
    exec (decodeRead 1) (core1 (abcDone.raise .illegalCmd)) =
      .next { core1 (abcDone.raise .illegalCmd) with rdData := 0x98500190#32 } ∧
    exec (decodeRead 4) (core1 (abcArch.raise .illegalCmd)) = .next (core1 (abcArch.raise .illegalCmd)) := ⟨rfl, rfl⟩
theorem witness_ReadsAreFunctionsWithoutSideEffect :
    (core1 abcDone).cmdReady = true ∧ { core1 abcDone with rdData := 1, draws := 5 }.cmdReady = true ∧
    { core1 abcDone with rdData := 1, draws := 5 }.arch = (core1 abcDone).arch := by decide
theorem witness_BusyReadsAreFreeValues : { core1 abcDone with cmdReady := false }.cmdReady = false := by decide
theorem witness_RotationIsTheArithmeticOne : (1 ≤ 1 ∧ 1 ≤ 31) ∧ (1 ≤ 31 ∧ 31 ≤ 31) := by decide
theorem witness_MessageWordsAreLittleEndian :
    (zeros 63 ++ [0x80#8]).length = 64 ∧ (zeros 63 ++ [0x80#8])[4 * 15]? = some 0 ∧ (zeros 63 ++ [0x80#8])[4 * 15 + 1]? = some 0 ∧
    (zeros 63 ++ [0x80#8])[4 * 15 + 2]? = some 0 ∧ (zeros 63 ++ [0x80#8])[4 * 15 + 3]? = some 0x80#8 := by decide

/-- A legal timing: every command takes one cycle, reset two, 3 rounds per clock. -/
def timing1 : Config.Timing := ⟨1, fun _ _ => 1, fun _ => 1, 2, 3⟩

theorem witness_timing : timing1.Legal := ⟨Nat.le_refl 1, fun _ _ => Nat.le_refl 1, fun _ => Nat.le_refl 1, by decide⟩
/-- 3 rounds per clock: 21 clocks leave round 63 to do, 22 finish. -/
theorem witness_RoundsPerCycleIsUnobservable :
    timing1.Legal ∧ 21 * timing1.roundsPerCycle = 63 ∧ 64 ≤ 22 * timing1.roundsPerCycle := ⟨witness_timing, rfl, by decide⟩
theorem witness_WordBytesAreInverse : le32bytes 0x04030201#32 = [1, 2, 3, 4] := by decide
theorem witness_StepRunsTheAcceptedCommand :
    (before abcArch true ⟨false, some 3#64, none, false⟩).schedule = [⟨false, some 3#64, none, false⟩] ∧
    (before abcArch true ⟨false, some 3#64, none, false⟩).cmdReady = true ∧ decodeCommand 3#64 = .ok .final := by decide
theorem witness_StepRunsTheRead :
    (before abcArch true ⟨false, none, some 5, false⟩).schedule = [⟨false, none, some 5, false⟩] ∧
    (before abcArch true ⟨false, none, some 5, false⟩).cmdReady = true := by decide
theorem witness_PlacedWordIsRunNext :
    decodeTableWord 64 0x22 = some (.updateN2 0 0) ∧ decodeTableWord 8 6 = some .rdLenHi := by decide
/-- A reading cycle without a command, with one, with cmd_ready = 0 and with rst = 1. -/
theorem witness_ReadPortValidity :
    (before abcDone true ⟨false, none, some 1, false⟩).cmdReady = true ∧
    (before abcDone true ⟨false, some 1#64, some 1, false⟩).cmdReady = true ∧
    (before abcDone false ⟨false, none, some 1, false⟩).cmdReady = false ∧
    (before abcDone true ⟨true, none, some 1, false⟩).nextCycle.rst = true := by decide
theorem witness_ResetEdgeGivesTheResetState :
    (before abcDone false ⟨true, some 3#64, some 1, true⟩).schedule = [⟨true, some 3#64, some 1, true⟩] := by decide
theorem witness_CommandsAreIgnoredWhileNotReady :
    (before abcArch false ⟨false, some 3#64, none, true⟩).schedule = [⟨false, some 3#64, none, true⟩] ∧
    (before abcArch false ⟨false, some 3#64, none, true⟩).cmdReady = false := by decide
theorem witness_CommandsCompleteAfterTheirCycles :
    timing1.Legal ∧ Instr.isRead .final = false ∧
    ∃ s : State, s.cmdReady = true ∧ s.arch = abcArch ∧ s.schedule = commandCycles timing1 s.arch .final ++ [Cycle.busy] :=
  ⟨witness_timing, rfl, ⟨abcArch, true, 0, 0, commandCycles timing1 abcArch .final ++ [Cycle.busy]⟩, rfl, rfl, rfl⟩
theorem witness_ResetCompletesAfterItsCycles :
    ∃ s : State, s.arch = abcPoisoned ∧ s.schedule = resetCyclesOf timing1 ++ [] :=
  ⟨⟨abcPoisoned, false, 0, 0, resetCyclesOf timing1 ++ []⟩, rfl, rfl⟩
theorem witness_ReadsObserveExactlyTheCommandsBefore :
    readyAfter true (commandCycles timing1 abcArch .final) = true ∧
    eventsOf true (commandCycles timing1 abcArch .final) = [.accepted 3#64] := by decide
theorem witness_ReadDutyKeepsFreeValuesAway : (before abcDone true ⟨false, none, some 1, false⟩).readDuty := fun _ => ⟨rfl, rfl⟩
theorem witness_StepKeepsTheInvariants :
    abcArch.Inv ∧ ∃ t, step (before abcArch true ⟨false, some 0#64, none, false⟩) = .next t :=
  ⟨⟨by decide, by decide, by decide, by decide, by decide, by decide⟩, _, rfl⟩
theorem witness_StepKeepsTheMessage :
    abcArch.Represents [0x61, 0x62, 0x63] ∧ ∃ t, step (before abcArch true ⟨false, some 3#64, none, false⟩) = .next t :=
  ⟨⟨rfl, fun _ => rfl, fun _ => rfl, fun h => (by cases h), fun h => (by cases h)⟩, _, rfl⟩
/-- V6: two chunkings of "abc". -/
theorem witness_ChunkingDoesNotMatter :
    (∀ i ∈ [Instr.updateN1 0x61, .updateN0, .updateN2 0x62 0x63], i.isUpdate = true) ∧
    (∀ j ∈ [Instr.updateN3 0x61 0x62 0x63], j.isUpdate = true) ∧
    [Instr.updateN1 0x61, .updateN0, .updateN2 0x62 0x63].flatMap Instr.bytes =
      [Instr.updateN3 0x61 0x62 0x63].flatMap Instr.bytes := by decide
theorem witness_HashOfAMessageIsItsMd5 :
    (∀ i ∈ [Instr.updateN2 0x61 0x62, .updateN1 0x63], i.isUpdate = true) ∧
    [0x61#8, 0x62#8, 0x63#8] = [Instr.updateN2 0x61 0x62, .updateN1 0x63].flatMap Instr.bytes := by decide
theorem witness_HashProgramEndsInTheDigest :
    AsmOp.expand (.hash [0x61, 0x62, 0x63]) = some [.cmd 1#64, .cmd 0x0063626100000032#64, .cmd 3#64] ∧
    ∃ s : State, s.cmdReady = true ∧
      s.schedule = driveWords (fun k => 5 - 2 * k) [.cmd 1#64, .cmd 0x0063626100000032#64, .cmd 3#64] :=
  ⟨by decide, ⟨abcArch, true, 0, 0, driveWords (fun k => 5 - 2 * k) [.cmd 1#64, .cmd 0x0063626100000032#64, .cmd 3#64]⟩, rfl, rfl⟩
/-- Three commands of different latency: 6, 4 and 2 cycles with cmd_ready = 0. -/
theorem test_drive_latencies :
    (driveWords (fun k => 5 - 2 * k) [.cmd 1#64, .cmd 0x0063626100000032#64, .cmd 3#64]).length = 7 + 5 + 3 := by decide
theorem witness_OnlyListedEventsWriteTheStateRegister :
    abcDone.pend.length < 64 ∧
    step (before abcDone true ⟨false, some 1#64, none, false⟩) = .next { State.reset with cmdReady := false } ∧
    Arch.reset.regs ≠ abcDone.regs := ⟨by decide, rfl, by decide⟩
theorem witness_DoneIsSetOnlyByFinal :
    step (before abcDone true ⟨false, some 1#64, none, false⟩) = .next { State.reset with cmdReady := false } ∧
    abcDone.done = true ∧ Arch.reset.done = false := ⟨rfl, rfl, rfl⟩
theorem witness_DoneRises :
    ∃ t, step (before abcArch true ⟨false, some 3#64, none, false⟩) = .next t ∧ abcArch.done = false ∧ t.arch.done = true :=
  ⟨_, rfl, rfl, rfl⟩
theorem witness_FirstErrorIsKept :
    step (before abcDone true ⟨false, some 3#64, none, false⟩) = .next { core1 abcPoisoned with cmdReady := false } := rfl
theorem witness_LengthCountsAcceptedBytesModulo :
    ∃ t, step (before (pendArch 62) true ⟨false, some 0x42#64, none, false⟩) = .next t ∧
      decodeCommand 0x42#64 = .ok (.updateN4 0 0 0 0) ∧ (pendArch 62).err = false ∧ (pendArch 62).done = false :=
  ⟨_, rfl, by decide, by decide, by decide⟩

/-- The other clauses: a reset edge, INIT, FINAL, a poisoned UPDATE, an illegal word and an idle cycle. -/
theorem witness_LengthClauses :
    (Cycle.event true ⟨true, none, none, false⟩ = some .reset ∧ decodeCommand 1#64 = .ok .init) ∧
    (decodeCommand 3#64 = .ok .final ∧ Instr.final ≠ .init ∧ Instr.isUpdate .final = false) ∧
    (decodeCommand 2#64 = .ok .updateN0 ∧ abcPoisoned.err = true) ∧ decodeCommand 0x52#64 = .error .countTooLarge ∧
    Cycle.event true Cycle.idle = none := by decide
/-- The other clauses: nothing changes in an idle cycle, and a reset edge clears the error. -/
theorem witness_FirstErrorClauses :
    step (core1 abcPoisoned) = .next (core1 abcPoisoned) ∧
    step (before abcPoisoned false ⟨true, none, none, true⟩) = .next State.reset := ⟨rfl, rfl⟩
theorem witness_DoneFallsByReset :
    step (before abcDone false ⟨true, none, none, true⟩) = .next State.reset ∧ abcDone.done = true := ⟨rfl, rfl⟩
/-- An UPDATE that just completes a block and one that just does not, and the other UPDATE forms of the statement. -/
theorem witness_UpdateClauses :
    (pendArch 63).pend.length + (Instr.updateN1 0).bytes.length = 64 ∧
    (pendArch 60).pend.length + (Instr.updateN3 0 0 0).bytes.length = 63 ∧
    Instr.isUpdate .updateN0 = true ∧ (pendArch 0).pend.length < 64 := by decide
theorem witness_StepKeepsTheMessageClauses :
    Cycle.event true ⟨false, some 3#64, none, false⟩ = some (.accepted 3#64) ∧ Cycle.event false ⟨false, some 3#64, none, true⟩ = none := by
  decide
/-- One word for each clause: INIT, UPDATE with N = 4, FINAL, and UPDATE with N = 5. -/
theorem witness_DecoderClauses :
    (0x1 / 128 % 2 ^ 25 = 0 ∧ 0x1 % 16 = 1 ∧ 0x1 / 16 % 8 = 0) ∧ (0x42 / 128 % 2 ^ 25 = 0 ∧ 0x42 % 16 = 2 ∧ 0x42 / 16 % 8 = 4) ∧
    (0x3 / 128 % 2 ^ 25 = 0 ∧ 0x3 % 16 = 3 ∧ 0x3 / 16 % 8 = 0) ∧ (0x52 % 16 = 2 ∧ ¬(0x52 / 16 % 8 ≤ 4)) := by decide

end Sys2Proof.Tests
end

section
/-! PROOFS. The mixed-width views of 20_memory.md: command lanes, message words, the length field and the digest bytes,
each as a digit of its word in Nat arithmetic. -/

namespace Sys2Proof.Machine

/-! ### Bit fields in Nat arithmetic -/

/-- Bits start + n - 1 : start of a word, by division. -/
theorem extractLsb'_eq_ofNat_div {m : Nat} (start n : Nat) (x : BitVec m) :
    x.extractLsb' start n = BitVec.ofNat n (x.toNat / 2 ^ start) := by
  simp [BitVec.extractLsb', Nat.shiftRight_eq_div_pow]

theorem opField_toNat (w : DWord) : (opField w).toNat = w.toNat % 16 := by
  simp [opField]

theorem countField_toNat (w : DWord) : (countField w).toNat = w.toNat / 16 % 8 := by
  simp [countField, Nat.shiftRight_eq_div_pow]

theorem rsvField_toNat (w : DWord) : (rsvField w).toNat = w.toNat / 128 % 2 ^ 25 := by
  simp [rsvField, Nat.shiftRight_eq_div_pow]

theorem lane_eq_ofNat_div (k : Nat) (w : DWord) : lane k w = BitVec.ofNat 8 (w.toNat / 2 ^ (32 + 8 * k)) :=
  extractLsb'_eq_ofNat_div _ _ w

/-! ### The decoder -/

/-- Settles O3: the decoder's four cases, with each field test read as an equation on the field's Nat value. -/
theorem decoderFollowsItsFieldTests : Obligations.DecoderFollowsItsFieldTests := by
  intro w op n rsv hop hn hrsv
  rw [← opField_toNat] at hop
  rw [← countField_toNat] at hn
  rw [← rsvField_toNat] at hrsv
  subst hop hn hrsv
  simp only [← lane_eq_ofNat_div]
  have hcases := decodeCommand_cases w
  simp only [← BitVec.toNat_inj] at hcases
  obtain ⟨h, hrsv, hop, hn⟩ | ⟨h, hrsv, hop, hn⟩ | ⟨i, h, hu, hb, hrsv, hop, hn⟩ | ⟨⟨r, h⟩, hi, hf, hu⟩ := hcases
  · simp [h, hrsv, hop, hn, Instr.isUpdate, Instr.row]
  · simp [h, hrsv, hop, hn, Instr.isUpdate, Instr.row]
  · have hinit : i ≠ .init := by rintro rfl; cases hu
    have hfinal : i ≠ .final := by rintro rfl; cases hu
    simp [h, hrsv, hop, hn, hu, hb, hinit, hfinal]
  · exact ⟨iff_of_false (by simp [h]) hi, iff_of_false (by simp [h]) hu, iff_of_false (by simp [h]) hf,
      iff_of_true ⟨r, h⟩ ⟨hi, hu, hf⟩⟩

/-! ### The padding engine -/

/-- The zeros of PAD are fewer than a block. -/
theorem padZeros_lt (p : Nat) : padZeros p < 64 := Nat.mod_lt _ (by decide)

/-- The zeros of PAD fill the block up to its length field (R105). -/
theorem padZeros_fill (p : Nat) : (p + 1 + padZeros p) % 64 = 56 := by
  unfold padZeros; omega

/-- No smaller number of zeros fills the block up to its length field. -/
theorem padZeros_least {p z : Nat} (hz : (p + 1 + z) % 64 = 56) : padZeros p ≤ z := by
  unfold padZeros; omega

theorem pad_length (pb : List Byte) (l : DWord) : (pad pb l).length = pb.length + 1 + padZeros pb.length + 8 := by
  simp [pad]
  omega

/-- One block for at most 55 pending bytes, else two. -/
theorem pad_length_of_lt {pb : List Byte} (l : DWord) (hp : pb.length < 64) :
    (pad pb l).length = if pb.length ≤ 55 then 64 else 128 := by
  rw [pad_length]
  unfold padZeros
  split <;> omega

/-- Byte `j` of the length field, by division. -/
theorem le64bytes_getElem? (v : DWord) {j : Nat} (hj : j < 8) :
    (le64bytes v)[j]? = some (BitVec.ofNat 8 (v.toNat / 2 ^ (8 * j))) := by
  rw [← extractLsb'_eq_ofNat_div]
  match j with
  | 0 | 1 | 2 | 3 | 4 | 5 | 6 | 7 => rfl

/-- The last eight bytes of PAD are the length field (R53). -/
theorem pad_getElem?_tail (pb : List Byte) (l : DWord) (j : Nat) :
    (pad pb l)[(pad pb l).length - 8 + j]? = (le64bytes l)[j]? := by
  have hfront : (pb ++ [0x80#8] ++ zeros (padZeros pb.length)).length = pb.length + 1 + padZeros pb.length := by
    simp
    omega
  rw [pad_length, pad, List.getElem?_append_right (by omega)]
  congr 1
  omega

/-- Settles O13, with the model's `padZeros` as the number of zeros. -/
theorem paddingIsOneOrTwoBlocks : Obligations.PaddingIsOneOrTwoBlocks := fun pb l hp =>
  ⟨padZeros pb.length, padZeros_lt _, rfl, padZeros_fill _, fun _ => padZeros_least, pad_length_of_lt l hp,
    fun j hj => (pad_getElem?_tail pb l j).trans (le64bytes_getElem? l hj)⟩

/-! ### The digest -/

/-- Byte `j` of a word, by division. -/
theorem le32bytes_getElem? (w : Word) {j : Nat} (hj : j < 4) :
    (le32bytes w)[j]? = some (BitVec.ofNat 8 (w.toNat / 2 ^ (8 * j))) := by
  rw [← extractLsb'_eq_ofNat_div]
  match j with
  | 0 | 1 | 2 | 3 => rfl

/-- STATE[k] of the state register (10_state.md R20). -/
def HashWords.word (st : HashWords) : Fin 4 → Word
  | 0 => st.a
  | 1 => st.b
  | 2 => st.c
  | 3 => st.d

theorem HashWords.getElem?_words (st : HashWords) (k : Fin 4) :
    [st.a, st.b, st.c, st.d][k.val]? = some (st.word k) := by
  match k with
  | 0 | 1 | 2 | 3 => rfl

/-- Digest bytes 4k to 4k+3 are the bytes of STATE[k] (R54). -/
theorem digestBytes_getElem? (st : HashWords) (k : Fin 4) {j : Nat} (hj : j < 4) :
    (digestBytes st)[4 * k.val + j]? = (le32bytes (st.word k))[j]? := by
  match k, j with
  | 0, 0 | 0, 1 | 0, 2 | 0, 3 | 1, 0 | 1, 1 | 1, 2 | 1, 3
  | 2, 0 | 2, 1 | 2, 2 | 2, 3 | 3, 0 | 3, 1 | 3, 2 | 3, 3 => rfl

/-- The read map shows STATE[k] at address 1 + k while DONE = 1 (R182 to R185). -/
theorem Arch.read_digest_of_done {a : Arch} (h : a.done = true) (k : Fin 4) :
    a.read (BitVec.ofNat 3 (1 + k.val)) = a.regs.word k := by
  match k with
  | 0 | 1 | 2 | 3 => exact if_pos h

/-- Settles O25, by the bytes of `digestBytes` and the read map at the digest addresses. -/
theorem digestBytesAreTheWordsLittleEndian : Obligations.DigestBytesAreTheWordsLittleEndian := by
  intro s k j hd hr hk hj
  refine ⟨digestBytes_length _, s.arch.regs.word ⟨k, hk⟩, s.arch.regs.getElem?_words ⟨k, hk⟩, ?_, ?_⟩
  · exact (digestBytes_getElem? s.arch.regs ⟨k, hk⟩ hj).trans (le32bytes_getElem? _ hj)
  · rw [exec_decodeRead, State.sample_of_ready _ hr, Arch.read_digest_of_done hd ⟨k, hk⟩]
    rfl

/-! ### Message words -/

/-- Putting words side by side, in Nat arithmetic. -/
theorem toNat_append_eq_mul_add {m n : Nat} (x : BitVec m) (y : BitVec n) :
    (x ++ y).toNat = x.toNat * 2 ^ n + y.toNat := by
  rw [BitVec.toNat_append, ← Nat.shiftLeft_add_eq_or_of_lt y.isLt, Nat.shiftLeft_eq]

/-- The value of a little-endian word (00_scope.md R14). -/
theorem le32_toNat (b0 b1 b2 b3 : Byte) :
    (le32 b0 b1 b2 b3).toNat = b0.toNat + 2 ^ 8 * b1.toNat + 2 ^ 16 * b2.toNat + 2 ^ 24 * b3.toNat := by
  simp only [le32, toNat_append_eq_mul_add]
  omega

theorem messageWords_getElem? (blk : List Byte) {j : Nat} (hj : j < 16) :
    (messageWords blk)[j]? = some (messageWord blk j) := by
  simp [messageWords, hj]

/-- A message word is built from four bytes of the block (R52, R141). -/
theorem messageWord_eq_le32 {blk : List Byte} {j : Nat} {b0 b1 b2 b3 : Byte} (h0 : blk[4 * j]? = some b0)
    (h1 : blk[4 * j + 1]? = some b1) (h2 : blk[4 * j + 2]? = some b2) (h3 : blk[4 * j + 3]? = some b3) :
    messageWord blk j = le32 b0 b1 b2 b3 := by
  simp [messageWord, List.getD_eq_getElem?_getD, h0, h1, h2, h3]

/-- Settles O29, by the value of a little-endian word. -/
theorem messageWordsAreLittleEndian : Obligations.MessageWordsAreLittleEndian := by
  intro blk j b0 b1 b2 b3 _ hj h0 h1 h2 h3
  refine ⟨by simp [messageWords], messageWord blk j, messageWords_getElem? blk hj, ?_⟩
  rw [messageWord_eq_le32 h0 h1 h2 h3, le32_toNat]

end Sys2Proof.Machine
end

section
/-! PROOFS. The command word as its four fields (30_encoding.md R71 to R73), and the reads of R77: a masked comparison is
one comparison per field, so the table's rows and the decoder's tests are the same conditions. -/

namespace Sys2Proof

/-! ### A command word is its fields -/

/-- DATA, bits 63:32 (R71). -/
def dataField (w : DWord) : BitVec 32 := w.extractLsb' 32 32

theorem dataField_toNat (w : DWord) : (dataField w).toNat = w.toNat / 2 ^ 32 := by
  simp [dataField, Nat.shiftRight_eq_div_pow]
  omega

/-- Two command words are equal exactly when their fields are. -/
theorem eq_iff_fields_eq (x y : DWord) :
    x = y ↔ dataField x = dataField y ∧ rsvField x = rsvField y ∧ countField x = countField y ∧
      opField x = opField y := by
  simp only [← BitVec.toNat_inj, dataField_toNat, Machine.rsvField_toNat, Machine.countField_toNat,
    Machine.opField_toNat]
  omega

/-- A masked comparison is one masked comparison per field. -/
theorem masked_eq_iff (w m v : DWord) :
    w &&& m = v ↔ dataField w &&& dataField m = dataField v ∧ rsvField w &&& rsvField m = rsvField v ∧
      countField w &&& countField m = countField v ∧ opField w &&& opField m = opField v := by
  have hsplit (i n : Nat) : (w &&& m).extractLsb' i n = w.extractLsb' i n &&& m.extractLsb' i n :=
    BitVec.extractLsb'_and
  rw [eq_iff_fields_eq]
  simp only [dataField, rsvField, countField, opField, hsplit]

/-- RSV, N and OP lie in the low half of the word. -/
theorem fields_eq_of_low_eq {w w' : DWord} (h : w'.extractLsb' 0 32 = w.extractLsb' 0 32) :
    rsvField w' = rsvField w ∧ countField w' = countField w ∧ opField w' = opField w := by
  have hlow : w'.toNat % 2 ^ 32 = w.toNat % 2 ^ 32 := by simpa using congrArg BitVec.toNat h
  simp only [← BitVec.toNat_inj, Machine.rsvField_toNat, Machine.countField_toNat, Machine.opField_toNat]
  omega

/-! ### What a decoded instruction says of its word -/

/-- A word that decodes is INIT, FINAL or the UPDATE of its first N lanes. -/
theorem decodeCommand_ok_cases {w : DWord} {i : Instr} (h : decodeCommand w = .ok i) :
    (i = .init ∧ rsvField w = 0 ∧ opField w = 1 ∧ countField w = 0) ∨
    (i = .final ∧ rsvField w = 0 ∧ opField w = 3 ∧ countField w = 0) ∨
    (i.isUpdate = true ∧ i.bytes = (List.range (countField w).toNat).map (fun k => lane k w) ∧
      rsvField w = 0 ∧ opField w = 2 ∧ (countField w).toNat ≤ 4) := by
  obtain ⟨hi, hf⟩ | ⟨hi, hf⟩ | ⟨j, hi, hf⟩ | ⟨⟨r, hr⟩, -⟩ := decodeCommand_cases w
  · exact .inl ⟨Except.ok.inj (h.symm.trans hi), hf⟩
  · exact .inr (.inl ⟨Except.ok.inj (h.symm.trans hi), hf⟩)
  · obtain rfl := Except.ok.inj (h.symm.trans hi)
    exact .inr (.inr hf)
  · cases h.symm.trans hr

/-- The words that decode, by their fields. -/
theorem exists_decodeCommand_ok_iff (w : DWord) :
    (∃ i, decodeCommand w = .ok i) ↔
      rsvField w = 0 ∧ (opField w = 1 ∧ countField w = 0 ∨ opField w = 3 ∧ countField w = 0 ∨
        opField w = 2 ∧ (countField w).toNat ≤ 4) := by
  constructor
  · rintro ⟨i, h⟩
    obtain ⟨-, hr, hf⟩ | ⟨-, hr, hf⟩ | ⟨-, -, hr, hf⟩ := decodeCommand_ok_cases h
    · exact ⟨hr, .inl hf⟩
    · exact ⟨hr, .inr (.inl hf)⟩
    · exact ⟨hr, .inr (.inr hf)⟩
  · rintro ⟨hr, hf⟩
    obtain ⟨h, -⟩ | ⟨h, -⟩ | ⟨i, h, -⟩ | ⟨-, hinit, hfinal, hupdate⟩ := decodeCommand_cases w
    · exact ⟨_, h⟩
    · exact ⟨_, h⟩
    · exact ⟨i, h⟩
    · obtain hf | hf | hf := hf
      · exact absurd ⟨hr, hf⟩ hinit
      · exact absurd ⟨hr, hf⟩ hfinal
      · exact absurd ⟨hr, hf⟩ hupdate

/-- The words that decode to an UPDATE, by their fields. -/
theorem exists_decodeCommand_update_iff (w : DWord) :
    (∃ i, decodeCommand w = .ok i ∧ i.isUpdate = true) ↔
      rsvField w = 0 ∧ opField w = 2 ∧ (countField w).toNat ≤ 4 := by
  constructor
  · rintro ⟨i, h, hu⟩
    obtain ⟨rfl, -⟩ | ⟨rfl, -⟩ | ⟨-, -, hf⟩ := decodeCommand_ok_cases h
    · cases hu
    · cases hu
    · exact hf
  · rintro ⟨hr, hop, hn⟩
    obtain ⟨i, h⟩ := (exists_decodeCommand_ok_iff w).mpr ⟨hr, .inr (.inr ⟨hop, hn⟩)⟩
    obtain ⟨-, -, hop', -⟩ | ⟨-, -, hop', -⟩ | ⟨hu, -⟩ := decodeCommand_ok_cases h
    · exact absurd (hop.symm.trans hop') (by decide)
    · exact absurd (hop.symm.trans hop') (by decide)
    · exact ⟨i, h, hu⟩

/-! ### Unused lanes -/

/-- An UPDATE with N = n depends on lanes 0 to n-1 only. -/
theorem decodeUpdate_congr {n : Nat} {w w' : DWord} (h : ∀ k, k < n → lane k w' = lane k w) :
    decodeUpdate n w' = decodeUpdate n w := by
  match n with
  | 0 | 1 | 2 | 3 | 4 => simp [decodeUpdate, h]
  | _ + 5 => rfl

/-- The decoder depends on the low half of the word and, for an UPDATE, on the first N lanes only (R72). -/
theorem decodeCommand_congr {w w' : DWord} (hlow : w'.extractLsb' 0 32 = w.extractLsb' 0 32)
    (hlanes : opField w = 2 → ∀ k, k < (countField w).toNat → lane k w' = lane k w) :
    decodeCommand w' = decodeCommand w := by
  obtain ⟨hrsv, hcount, hop⟩ := fields_eq_of_low_eq hlow
  by_cases h2 : opField w = 2
  · simp only [decodeCommand, hrsv, hcount, hop, decodeUpdate_congr (hlanes h2)]
  · simp only [decodeCommand, hrsv, hcount, hop, h2, if_false]

/-- Settles O4, by the decoder's cases and by what it depends on. -/
theorem unusedLanesAreIgnored : Obligations.UnusedLanesAreIgnored := by
  intro w w' i h
  obtain ⟨rfl, -, hop, -⟩ | ⟨rfl, -, hop, -⟩ | ⟨hu, hbytes, -, hop, -⟩ := decodeCommand_ok_cases h
  · refine ⟨nofun, fun _ => rfl, fun hlow _ => (decodeCommand_congr hlow ?_).trans h⟩
    simp [hop]
  · refine ⟨nofun, fun _ => rfl, fun hlow _ => (decodeCommand_congr hlow ?_).trans h⟩
    simp [hop]
  · have hlen : i.bytes.length = (countField w).toNat := by simp [hbytes]
    refine ⟨fun _ => ⟨hlen.trans (Machine.countField_toNat w), fun k hk => ?_⟩, ?_, fun hlow hlanes => ?_⟩
    · rw [hlen] at hk
      simp [hbytes, hk, lane]
    · rintro (rfl | rfl) <;> rfl
    · rw [hlen] at hlanes
      exact (decodeCommand_congr hlow fun _ => hlanes).trans h

/-! ### The rows of the command table -/

/-- A row under the mask of the low half accepts the words with its RSV, N and OP. -/
theorem accepts_lowMask_iff (w v : DWord) (hv : dataField v = 0#32) :
    CommandRow.accepts ⟨0x00000000FFFFFFFF#64, v⟩ w = true ↔
      rsvField w = rsvField v ∧ countField w = countField v ∧ opField w = opField v := by
  have hdata : dataField 0x00000000FFFFFFFF#64 = 0#32 := by decide
  have hrsv : rsvField 0x00000000FFFFFFFF#64 = BitVec.allOnes 25 := by decide
  have hcount : countField 0x00000000FFFFFFFF#64 = BitVec.allOnes 3 := by decide
  have hop : opField 0x00000000FFFFFFFF#64 = BitVec.allOnes 4 := by decide
  simp only [CommandRow.accepts, beq_iff_eq, masked_eq_iff, hdata, hrsv, hcount, hop, hv, BitVec.and_zero,
    BitVec.and_allOnes, true_and]

/-- R73's match of an UPDATE tests RSV and OP. -/
theorem updateMask_eq_iff (w : DWord) :
    w &&& 0x00000000FFFFFF8F#64 = 0x0000000000000002#64 ↔ rsvField w = 0 ∧ opField w = 2 := by
  have hdata : dataField 0x00000000FFFFFF8F#64 = 0#32 ∧ dataField 2#64 = 0#32 := by decide
  have hrsv : rsvField 0x00000000FFFFFF8F#64 = BitVec.allOnes 25 ∧ rsvField 2#64 = 0 := by decide
  have hcount : countField 0x00000000FFFFFF8F#64 = 0#3 ∧ countField 2#64 = 0#3 := by decide
  have hop : opField 0x00000000FFFFFF8F#64 = BitVec.allOnes 4 ∧ opField 2#64 = 2 := by decide
  simp only [masked_eq_iff, hdata, hrsv, hcount, hop, BitVec.and_zero, BitVec.and_allOnes, true_and]

/-- The match value of the UPDATE with N = `n` (R73). -/
def updateValue (n : BitVec 3) : DWord := n.setWidth 64 <<< 4 ||| 2#64

theorem updateValue_fields (n : BitVec 3) :
    dataField (updateValue n) = 0 ∧ rsvField (updateValue n) = 0 ∧ countField (updateValue n) = n ∧
      opField (updateValue n) = 2 := by
  revert n
  decide

/-- Row 1 + N of the table is the UPDATE with N bytes. -/
theorem commandRows_update {n : BitVec 3} (hn : n.toNat ≤ 4) :
    commandRows[1 + n.toNat]? = some ⟨0x00000000FFFFFFFF#64, updateValue n⟩ := by
  revert n
  decide

/-- The UPDATE of k bytes is row 1 + k. -/
theorem row_of_isUpdate {i : Instr} (h : i.isUpdate = true) : i.row = 1 + i.bytes.length := by
  revert h
  cases i <;> simp [Instr.isUpdate, Instr.row, Instr.bytes]

/-- A decoded instruction's own row accepts its word. -/
theorem row_accepts_of_decodeCommand {w : DWord} {i : Instr} (h : decodeCommand w = .ok i) :
    ∃ r, commandRows[i.row]? = some r ∧ r.accepts w = true := by
  obtain ⟨rfl, hf⟩ | ⟨rfl, hf⟩ | ⟨hu, hbytes, hrsv, hop, hn⟩ := decodeCommand_ok_cases h
  · exact ⟨_, rfl, (accepts_lowMask_iff w 1#64 (by decide)).mpr ⟨hf.1, hf.2.2, hf.2.1⟩⟩
  · exact ⟨_, rfl, (accepts_lowMask_iff w 3#64 (by decide)).mpr ⟨hf.1, hf.2.2, hf.2.1⟩⟩
  · have hrow : i.row = 1 + (countField w).toNat := by simp [row_of_isUpdate hu, hbytes]
    obtain ⟨hdata, hrsv', hcount', hop'⟩ := updateValue_fields (countField w)
    refine ⟨_, hrow ▸ commandRows_update hn, (accepts_lowMask_iff w _ hdata).mpr ?_⟩
    exact ⟨hrsv.trans hrsv'.symm, hcount'.symm, hop.trans hop'.symm⟩

/-- Every row tests the low half of the word, for a value that passes the decoder's field tests. -/
theorem commandRows_fields : ∀ r ∈ commandRows, r.mask = 0x00000000FFFFFFFF#64 ∧ dataField r.value = 0 ∧
    rsvField r.value = 0 ∧ (opField r.value = 1 ∧ countField r.value = 0 ∨
      opField r.value = 3 ∧ countField r.value = 0 ∨ opField r.value = 2 ∧ (countField r.value).toNat ≤ 4) := by
  decide

/-- The decoder accepts exactly the legal words. -/
theorem exists_decodeCommand_ok_iff_legalWord (w : DWord) : (∃ i, decodeCommand w = .ok i) ↔ legalWord w = true := by
  rw [legalWord, List.any_eq_true]
  constructor
  · rintro ⟨i, h⟩
    obtain ⟨r, hrow, hacc⟩ := row_accepts_of_decodeCommand h
    exact ⟨r, List.mem_of_getElem? hrow, hacc⟩
  · rintro ⟨⟨mask, value⟩, hmem, hacc⟩
    obtain ⟨rfl, hdata, hfields⟩ := commandRows_fields _ hmem
    obtain ⟨hrsv, hcount, hop⟩ := (accepts_lowMask_iff w value hdata).mp hacc
    rw [exists_decodeCommand_ok_iff, hrsv, hcount, hop]
    exact hfields

/-- R73's match of an UPDATE, with its bound on N. -/
theorem exists_decodeCommand_update_iff_mask (w : DWord) :
    (∃ i, decodeCommand w = .ok i ∧ i.isUpdate = true) ↔
      w &&& 0x00000000FFFFFF8F#64 = 0x0000000000000002#64 ∧ w.toNat / 16 % 8 ≤ 4 := by
  rw [exists_decodeCommand_update_iff, updateMask_eq_iff, Machine.countField_toNat, and_assoc]

/-- The read at an address is the row of that address (R77). -/
theorem decodeRead_row (a : BitVec 3) : (decodeRead a).row = 7 + a.toNat := by
  revert a
  decide

/-- Settles O5, by the fields that the rows' masks select. -/
theorem legalWordsAreTheTableRows : Obligations.LegalWordsAreTheTableRows :=
  ⟨exists_decodeCommand_ok_iff_legalWord, fun _ _ => row_accepts_of_decodeCommand,
    exists_decodeCommand_update_iff_mask, decodeRead_row⟩

end Sys2Proof

namespace Sys2Proof.Machine

/-- With `cmd_ready = 1` a read answers the map's value and changes nothing else. -/
theorem exec_decodeRead_of_ready (a : BitVec 3) {s : State} (h : s.cmdReady = true) :
    exec (decodeRead a) s = .next (s.withRdData (s.arch.read a)) := by
  rw [exec_decodeRead, State.sample_of_ready _ h]

/-- Settles O22: the second of two reads finds the state the first found, but for `rd_data`. -/
theorem readsAreFunctionsWithoutSideEffect : Obligations.ReadsAreFunctionsWithoutSideEffect := by
  intro a s s' hs hs' harch
  refine ⟨exec_decodeRead_of_ready a hs, harch ▸ exec_decodeRead_of_ready a hs', ?_⟩
  have hagain : (s.withRdData (s.arch.read a)).cmdReady = true := hs
  simp only [execAll, exec_decodeRead_of_ready a hs, exec_decodeRead_of_ready a hagain, andThen_next]
  rfl

end Sys2Proof.Machine
end

section
/-! PROOFS. The commands of 40_accumulator.md: INIT (R101), the bulk form of UPDATE (R103), FINAL's padded blocks (R104)
and the precedence of an accepted word's outcomes (R100). An accumulator fed with bytes is one that drains the complete
blocks of what it holds. -/

namespace Sys2Proof

/-! ### The words of INIT and FINAL -/

/-- INIT and FINAL leave nothing of RSV, N and OP open. -/
theorem fields_of_decodeCommand_ok {w : DWord} {i : Instr} (h : decodeCommand w = .ok i) (hu : i.isUpdate = false) :
    rsvField w = 0 ∧ countField w = 0 ∧ opField w = if i = .init then 1 else 3 := by
  obtain ⟨rfl, hrsv, hop, hn⟩ | ⟨rfl, hrsv, hop, hn⟩ | ⟨hu', -⟩ := decodeCommand_ok_cases h
  · exact ⟨hrsv, hn, hop⟩
  · exact ⟨hrsv, hn, hop⟩
  · cases hu.symm.trans hu'

/-- The words of a command with no data byte are those with the low half of any one of them (R73). -/
theorem decodeCommand_eq_ok_iff_low {v : DWord} {i : Instr} (hv : decodeCommand v = .ok i) (hu : i.isUpdate = false)
    (hdata : dataField v = 0#32) (w : DWord) : decodeCommand w = .ok i ↔ w &&& 0x00000000FFFFFFFF#64 = v := by
  obtain ⟨hrsv, hn, hop⟩ := fields_of_decodeCommand_ok hv hu
  constructor
  · intro hw
    obtain ⟨hrsv', hn', hop'⟩ := fields_of_decodeCommand_ok hw hu
    rw [← beq_iff_eq]
    exact (accepts_lowMask_iff w v hdata).mpr ⟨hrsv'.trans hrsv.symm, hn'.trans hn.symm, hop'.trans hop.symm⟩
  · rintro rfl
    have hlow : w.extractLsb' 0 32 = (w &&& 0x00000000FFFFFFFF#64).extractLsb' 0 32 := by
      rw [BitVec.extractLsb'_and]
      exact BitVec.and_allOnes.symm
    rw [← hv]
    refine decodeCommand_congr hlow fun h2 => ?_
    rw [hop] at h2
    split at h2 <;> cases h2

end Sys2Proof

namespace Sys2Proof.Machine

/-! ### INIT -/

theorem exec_init (s : State) : exec .init s = .next (s.withArch Arch.reset) := rfl

/-- Settles O8: INIT replaces the tuple by the reset tuple whatever it was, so a second INIT finds that tuple. -/
theorem initLoadsTheResetState : Obligations.InitLoadsTheResetState := by
  refine ⟨decodeCommand_eq_ok_iff_low (v := 1#64) rfl rfl rfl, exec_init, rfl, fun s t h => ?_⟩
  cases h
  rfl

/-! ### Outcomes of UPDATE and FINAL, by phase -/

theorem exec_update_of_active {i : Instr} (hi : i.isUpdate = true) {s : State} (he : s.arch.err = false)
    (hd : s.arch.done = false) : exec i s = .next (s.withArch (s.arch.absorbAll i.bytes)) := by
  rw [exec_update hi, State.update, Arch.guarded_of_active _ _ he hd]

theorem exec_final (s : State) :
    exec .final s = .next (s.withArch (s.arch.guarded .finalAfterFinal Arch.finish)) := rfl

theorem exec_final_of_active {s : State} (he : s.arch.err = false) (hd : s.arch.done = false) :
    exec .final s = .next (s.withArch s.arch.finish) := by
  rw [exec_final, Arch.guarded_of_active _ _ he hd]

theorem exec_final_of_done {s : State} (he : s.arch.err = false) (hd : s.arch.done = true) :
    exec .final s = .next (s.withArch { s.arch with err := true, ecode := .finalAfterFinal }) := by
  rw [exec_final, Arch.guarded_of_done _ _ he hd, Arch.raise_of_no_err _ he]

theorem exec_final_of_err {s : State} (he : s.arch.err = true) : exec .final s = .next s := by
  rw [exec_final, Arch.guarded_of_err _ _ he, State.withArch_self]

/-! ### EXEC of an accepted word -/

theorem execWord_of_ok {w : DWord} {i : Instr} (h : decodeCommand w = .ok i) (s : State) :
    execWord w s = exec i s := by
  simp only [execWord, h]

theorem execWord_of_error {w : DWord} {r : CommandReject} (h : decodeCommand w = .error r) (s : State) :
    execWord w s = .next (s.withArch (s.arch.raise .illegalCmd)) := by
  simp only [execWord, h, State.illegalCommand]

theorem Arch.execWord_of_error {w : DWord} {r : CommandReject} (h : decodeCommand w = .error r) (a : Arch) :
    a.execWord w = a.raise .illegalCmd := by
  simp only [Arch.execWord, h]

theorem Arch.execWord_of_init {w : DWord} (h : decodeCommand w = .ok .init) (a : Arch) :
    a.execWord w = Arch.reset := by
  simp [Arch.execWord, h]

/-- The tests of EXEC that an UPDATE meets are the state checks of the model's UPDATE. -/
theorem Arch.execWord_of_update {w : DWord} {i : Instr} (h : decodeCommand w = .ok i) (hu : i.isUpdate = true)
    (a : Arch) : a.execWord w = a.guarded .updateAfterFinal (Arch.absorbAll i.bytes) := by
  have hi : i ≠ .init := by rintro rfl; cases hu
  simp [Arch.execWord, h, hi, hu, Arch.guarded]

/-- The tests of EXEC that a FINAL meets are the state checks of the model's FINAL. -/
theorem Arch.execWord_of_final {w : DWord} (h : decodeCommand w = .ok .final) (a : Arch) :
    a.execWord w = a.guarded .finalAfterFinal Arch.finish := by
  have hu : Instr.isUpdate .final = false := rfl
  simp [Arch.execWord, h, hu, Arch.guarded]

/-- Settles O16, by the outcomes of the decoder: illegal, INIT, FINAL, UPDATE. -/
theorem execFollowsThePrecedenceOrder : Obligations.ExecFollowsThePrecedenceOrder := by
  intro w s
  change execWord w s = .next (s.withArch (s.arch.execWord w))
  rcases h : decodeCommand w with r | i
  · rw [execWord_of_error h, Arch.execWord_of_error h]
  · rw [execWord_of_ok h]
    obtain ⟨rfl, -⟩ | ⟨rfl, -⟩ | ⟨hu, -⟩ := decodeCommand_ok_cases h
    · rw [Arch.execWord_of_init h, exec_init]
    · rw [Arch.execWord_of_final h, exec_final]
    · rw [Arch.execWord_of_update h hu, exec_update hu, State.update]

/-! ### Draining complete blocks -/

theorem compressBlocks_block_append {blk : List Byte} (h : blk.length = 64) (n : Nat) (st : HashWords)
    (bs : List Byte) : compressBlocks (n + 1) st (blk ++ bs) = compressBlocks n (compress st blk) bs := by
  rw [compressBlocks_succ, List.take_left' h, List.drop_left' h]

theorem compressBlocks_one {blk : List Byte} (h : blk.length = 64) (st : HashWords) :
    compressBlocks 1 st blk = compress st blk := by
  simpa using compressBlocks_block_append h 0 st []

/-- The tuple in which the complete blocks of `bs` have been compressed in order and the rest is pending. -/
def Arch.drain (a : Arch) (bs : List Byte) : Arch :=
  { a with
    pend := bs.drop (64 * (bs.length / 64))
    regs := compressBlocks (bs.length / 64) a.regs bs }

theorem Arch.drain_pend_length_lt (a : Arch) (bs : List Byte) : (a.drain bs).pend.length < 64 := by
  simp only [Arch.drain, List.length_drop]
  omega

/-- Less than a block is only pending. -/
theorem Arch.drain_of_lt (a : Arch) {bs : List Byte} (h : bs.length < 64) : a.drain bs = { a with pend := bs } := by
  simp [Arch.drain, Nat.div_eq_of_lt h]

/-- A block in front is compressed before the rest is drained; what was pending before does not matter. -/
theorem Arch.drain_block_append (a : Arch) {blk : List Byte} (h : blk.length = 64) (p bs : List Byte) :
    a.drain (blk ++ bs) = { a with regs := compress a.regs blk, pend := p }.drain bs := by
  have hcount : (blk ++ bs).length / 64 = bs.length / 64 + 1 := by
    rw [List.length_append, h]
    omega
  have hrest : (blk ++ bs).drop (64 * (bs.length / 64 + 1)) = bs.drop (64 * (bs.length / 64)) := by
    rw [Nat.mul_succ, Nat.add_comm, ← List.drop_drop, List.drop_left' h]
  simp only [Arch.drain, hcount, hrest, compressBlocks_block_append h]

/-- A byte that does not complete a block is counted and pending. -/
theorem Arch.absorb_of_room {a : Arch} (x : Byte) (h : a.pend.length + 1 ≠ 64) :
    a.absorb x = { a with len := a.len + 8, pend := a.pend ++ [x] } :=
  Arch.push_of_room (a := { a with len := a.len + 8 }) x h

/-- A byte that completes a block is counted, and the block is compressed. -/
theorem Arch.absorb_of_full {a : Arch} (x : Byte) (h : a.pend.length + 1 = 64) :
    a.absorb x = { a with len := a.len + 8, regs := compress a.regs (a.pend ++ [x]), pend := [] } :=
  Arch.push_of_full (a := { a with len := a.len + 8 }) x h

/-- Absorbing bytes drains what was pending followed by them, and counts their bits (R103). -/
theorem Arch.absorbAll_eq_drain {a : Arch} (h : a.pend.length < 64) (bs : List Byte) :
    a.absorbAll bs = { a with len := a.len + BitVec.ofNat 64 (8 * bs.length) }.drain (a.pend ++ bs) := by
  induction bs generalizing a with
  | nil => simp [Arch.drain_of_lt _ h]
  | cons x bs ih =>
    have hlen : a.len + 8 + BitVec.ofNat 64 (8 * bs.length) = a.len + BitVec.ofNat 64 (8 * (x :: bs).length) := by
      rw [BitVec.add_assoc, List.length_cons, Nat.mul_succ, Nat.add_comm, BitVec.ofNat_add]
      rfl
    rw [Arch.absorbAll_cons, ih (Arch.absorb_pend_lt x h), Arch.absorb_len, hlen, List.append_cons]
    by_cases hfull : a.pend.length + 1 = 64
    · have hblk : (a.pend ++ [x]).length = 64 := by rw [List.length_append, List.length_singleton, hfull]
      rw [Arch.absorb_of_full x hfull, Arch.drain_block_append _ hblk []]
      rfl
    · rw [Arch.absorb_of_room x hfull]
      rfl

/-- One byte: LEN counts it, and a buffer it completes is compressed and emptied. -/
theorem Arch.absorb_eq (a : Arch) (x : Byte) :
    a.absorb x = { a with
      len := a.len + 8
      pend := if (a.pend ++ [x]).length = 64 then [] else a.pend ++ [x]
      regs := if (a.pend ++ [x]).length = 64 then compress a.regs (a.pend ++ [x]) else a.regs } := by
  have hlen : (a.pend ++ [x]).length = a.pend.length + 1 := by simp
  rw [hlen]
  by_cases hfull : a.pend.length + 1 = 64
  · rw [Arch.absorb_of_full x hfull, if_pos hfull, if_pos hfull]
  · rw [Arch.absorb_of_room x hfull, if_neg hfull, if_neg hfull]

/-- LEN's sum modulo 2^64, in Nat arithmetic. -/
theorem add_ofNat_eq_ofNat_toNat_add (l : DWord) (n : Nat) :
    l + BitVec.ofNat 64 n = BitVec.ofNat 64 (l.toNat + n) := by
  rw [BitVec.ofNat_add, BitVec.ofNat_toNat, BitVec.setWidth_eq]

/-- Settles O9: one byte by the two cases of `push`, any number of them by draining. -/
theorem updateAbsorbsItsBytes : Obligations.UpdateAbsorbsItsBytes := by
  constructor
  · intro s x he hd
    rw [exec_update_of_active rfl he hd, Instr.bytes, Arch.absorbAll_cons, Arch.absorbAll_nil, Arch.absorb_eq]
    rfl
  · intro i s hi he hd hp
    have habsorb := Arch.absorbAll_eq_drain hp i.bytes
    refine ⟨_, exec_update_of_active hi he hd, ?_, ?_⟩
    · rw [habsorb, add_ofNat_eq_ofNat_toNat_add]
      rfl
    · rw [State.withArch_arch, habsorb]
      exact Arch.drain_pend_length_lt _ _

/-! ### FINAL -/

/-- The length field, least significant byte first (R53). -/
theorem le64bytes_eq_map_range (v : DWord) :
    le64bytes v = (List.range 8).map (fun j => BitVec.ofNat 8 (v.toNat / 2 ^ (8 * j))) := by
  simp only [le64bytes, dwordByte, extractLsb'_eq_ofNat_div]
  rfl

/-- With at most 55 bytes PAD is one block. -/
theorem pad_eq_of_le {pb : List Byte} (l : DWord) (hp : pb.length ≤ 55) :
    pad pb l = pb ++ [0x80#8] ++ List.replicate (55 - pb.length) 0#8 ++ le64bytes l := by
  have hz : padZeros pb.length = 55 - pb.length := by unfold padZeros; omega
  rw [pad, hz]
  rfl

/-- With 56 to 63 bytes PAD fills one block with zeros and holds the length in a second. -/
theorem pad_eq_of_gt {pb : List Byte} (l : DWord) (hp : 55 < pb.length) (hlt : pb.length < 64) :
    pad pb l = (pb ++ [0x80#8] ++ List.replicate (63 - pb.length) 0#8) ++ (List.replicate 56 0#8 ++ le64bytes l) := by
  have hz : padZeros pb.length = (63 - pb.length) + 56 := by unfold padZeros; omega
  rw [pad, hz, zeros, List.replicate_add]
  simp only [List.append_assoc]
  rfl

/-- FINAL of at most 55 pending bytes compresses one block. -/
theorem Arch.finish_of_le {a : Arch} (hp : a.pend.length ≤ 55) :
    a.finish = { a with
      done := true
      pend := []
      regs := compress a.regs
        (a.pend ++ [0x80#8] ++ List.replicate (55 - a.pend.length) 0#8 ++ le64bytes a.len) } := by
  have hlen : (pad a.pend a.len).length = 64 := by rw [pad_length_of_lt _ (by omega), if_pos hp]
  rw [Arch.finish, hlen, compressBlocks_one hlen, pad_eq_of_le _ hp]

/-- FINAL of 56 to 63 pending bytes compresses two blocks. -/
theorem Arch.finish_of_gt {a : Arch} (hp : 55 < a.pend.length) (hlt : a.pend.length < 64) :
    a.finish = { a with
      done := true
      pend := []
      regs := compress
        (compress a.regs (a.pend ++ [0x80#8] ++ List.replicate (63 - a.pend.length) 0#8))
        (List.replicate 56 0#8 ++ le64bytes a.len) } := by
  have hlen : (pad a.pend a.len).length = 128 := by rw [pad_length_of_lt _ hlt, if_neg (by omega)]
  have hfirst : (a.pend ++ [0x80#8] ++ List.replicate (63 - a.pend.length) 0#8).length = 64 := by
    simp
    omega
  have hsecond : (List.replicate 56 0#8 ++ le64bytes a.len).length = 64 := by simp
  rw [Arch.finish, hlen, pad_eq_of_gt _ hp hlt, compressBlocks_block_append hfirst 1, compressBlocks_one hsecond]

/-- Settles O12, by the three state checks and, in phase ACTIVE, the two sides of the padding threshold. -/
theorem finalPadsAndCompresses : Obligations.FinalPadsAndCompresses := by
  refine ⟨decodeCommand_eq_ok_iff_low (v := 3#64) rfl rfl rfl, ?_, fun _ => exec_final_of_done,
    fun _ => exec_final_of_err⟩
  intro s l8 he hd hlt hl8
  rw [← le64bytes_eq_map_range] at hl8
  rw [hl8, exec_final_of_active he hd]
  by_cases hp : s.arch.pend.length ≤ 55
  · rw [if_pos hp, Arch.finish_of_le hp]
    rfl
  · rw [if_neg hp, Arch.finish_of_gt (by omega) hlt]
    rfl

end Sys2Proof.Machine
end

section
/-! PROOFS. The read port of 42_readport.md: the four digest addresses, gated by DONE (R182 to R185), and the reserved
address (R188). -/

namespace Sys2Proof.Machine

/-- The read map at the digest addresses, in both phases (R182 to R185). -/
theorem Arch.read_digest (a : Arch) (k : Fin 4) :
    a.read (BitVec.ofNat 3 (1 + k.val)) = if a.done = true then a.regs.word k else 0 := by
  match k with
  | 0 | 1 | 2 | 3 => rfl

/-- The digest addresses are 1 to 4. -/
theorem exists_eq_digestAddr {a : BitVec 3} (h1 : 1 ≤ a.toNat) (h4 : a.toNat ≤ 4) :
    ∃ k : Fin 4, a = BitVec.ofNat 3 (1 + k.val) := by
  refine ⟨⟨a.toNat - 1, by omega⟩, ?_⟩
  rw [Nat.add_sub_cancel' h1, BitVec.ofNat_toNat, BitVec.setWidth_eq]

/-- The error action keeps DONE and STATE, and so what a digest address reads (R203). -/
theorem Arch.read_raise_of_digestAddr (x : Arch) (e : ErrorCode) {a : BitVec 3} (h1 : 1 ≤ a.toNat) (h4 : a.toNat ≤ 4) :
    (x.raise e).read a = x.read a := by
  obtain ⟨k, rfl⟩ := exists_eq_digestAddr h1 h4
  simp only [Arch.read_digest, Arch.raise_done, Arch.raise_regs]

/-- With `cmd_ready = 1` a digest read answers its word of STATE behind the DONE gate and changes nothing else. -/
theorem exec_digestRead_of_ready (k : Fin 4) {s : State} (h : s.cmdReady = true) :
    exec (decodeRead (BitVec.ofNat 3 (1 + k.val))) s =
      .next (s.withRdData (if s.arch.done = true then s.arch.regs.word k else 0)) := by
  rw [exec_decodeRead_of_ready _ h, Arch.read_digest]

/-- Settles O19, by the read map at the digest addresses, which depends on DONE and STATE only. -/
theorem digestReadsShowTheStateOnlyWhenDone : Obligations.DigestReadsShowTheStateOnlyWhenDone := by
  refine ⟨fun s hs => ⟨exec_digestRead_of_ready 0 hs, exec_digestRead_of_ready 1 hs, exec_digestRead_of_ready 2 hs,
    exec_digestRead_of_ready 3 hs⟩, rfl, ?_⟩
  rintro s _ u e a hs h1 h4 rfl hu
  have hready : (s.withArch (s.arch.raise e)).cmdReady = true := hs
  have hread : exec (decodeRead a) (s.withArch (s.arch.raise e)) =
      .next ((s.withArch (s.arch.raise e)).withRdData (s.arch.read a)) := by
    rw [exec_decodeRead_of_ready a hready, State.withArch_arch, Arch.read_raise_of_digestAddr _ e h1 h4]
  obtain rfl := Host.Outcome.next.inj (hread.symm.trans hu)
  exact exec_decodeRead_of_ready a hs

/-- Settles O21, by the read map at address 7. -/
theorem reservedAddressReadsZero : Obligations.ReservedAddressReadsZero :=
  ⟨rfl, fun _ hs => exec_decodeRead_of_ready 7 hs⟩

end Sys2Proof.Machine
end

section
/-! PROOFS. The errors of 60_exceptions.md: the error action records the first error and changes nothing else (R203), and
a poisoned core is left by INIT or `rst` only (R204). -/

namespace Sys2Proof.Machine

/-! ### UPDATE, FINAL and an illegal word, poisoned or in phase DONE -/

theorem exec_update_of_done {i : Instr} (hi : i.isUpdate = true) {s : State} (he : s.arch.err = false)
    (hd : s.arch.done = true) :
    exec i s = .next (s.withArch { s.arch with err := true, ecode := .updateAfterFinal }) := by
  rw [exec_update hi, State.update, Arch.guarded_of_done _ _ he hd, Arch.raise_of_no_err _ he]

/-- A poisoned core ignores UPDATE and FINAL (R204). -/
theorem exec_of_err {i : Instr} (hi : i.isUpdate = true ∨ i = .final) {s : State} (he : s.arch.err = true) :
    exec i s = .next s := by
  obtain hu | rfl := hi
  · rw [exec_update hu, State.update, Arch.guarded_of_err _ _ he, State.withArch_self]
  · exact exec_final_of_err he

theorem execWord_of_error_of_no_err {w : DWord} {r : CommandReject} (h : decodeCommand w = .error r) {s : State}
    (he : s.arch.err = false) :
    execWord w s = .next (s.withArch { s.arch with err := true, ecode := .illegalCmd }) := by
  rw [execWord_of_error h, Arch.raise_of_no_err _ he]

/-- A poisoned core ignores an illegal word (R204). -/
theorem execWord_of_error_of_err {w : DWord} {r : CommandReject} (h : decodeCommand w = .error r) {s : State}
    (he : s.arch.err = true) : execWord w s = .next s := by
  rw [execWord_of_error h, Arch.raise_of_err _ he, State.withArch_self]

/-- Settles O14: UPDATE, FINAL and an illegal word, each before and after the first error. -/
theorem errorsTouchOnlyErrAndEcode : Obligations.ErrorsTouchOnlyErrAndEcode :=
  ⟨fun _ _ hi => exec_update_of_done hi, fun _ => exec_final_of_done, fun _ _ _ h => execWord_of_error_of_no_err h,
    fun _ _ _ h => execWord_of_error_of_err h, fun _ _ hi => exec_of_err hi, rfl, rfl, rfl, rfl⟩

/-! ### The poisoned core -/

/-- A poisoned core ignores every accepted word but a legal INIT (R204). -/
theorem execWord_of_err {w : DWord} {s : State} (he : s.arch.err = true) (hw : decodeCommand w ≠ .ok .init) :
    execWord w s = .next s := by
  rcases h : decodeCommand w with r | i
  · exact execWord_of_error_of_err h he
  · rw [execWord_of_ok h]
    obtain ⟨rfl, -⟩ | ⟨rfl, -⟩ | ⟨hu, -⟩ := decodeCommand_ok_cases h
    · exact absurd h hw
    · exact exec_of_err (.inr rfl) he
    · exact exec_of_err (.inl hu) he

/-- A cycle with `rst = 1` ends in the reset tuple (R207; 10_state.md R32). -/
theorem step_of_rst {s : State} {c : Cycle} {cs : List Cycle} (hs : s.schedule = c :: cs) (hr : c.rst = true) :
    ∃ t, step s = .next t ∧ t.arch = Arch.reset := by
  have hc : s.nextCycle = c := by simp [State.nextCycle, hs]
  rw [step_eq, hc, edgeStage_reset _ hr]
  exact ⟨_, rfl, rfl⟩

/-- In phase DONE the state checks end in the error action, which a poisoned core ignores (R203, R205). -/
theorem Arch.guarded_eq_raise_of_done {a : Arch} (code : ErrorCode) (f : Arch → Arch) (hd : a.done = true) :
    a.guarded code f = a.raise code := by
  cases he : a.err with
  | true => rw [Arch.guarded_of_err _ _ he, Arch.raise_of_err _ he]
  | false => exact Arch.guarded_of_done _ _ he hd

/-- In phase DONE an UPDATE or FINAL is the error action of some code, poisoned or not. -/
theorem exec_eq_raise_of_done {i : Instr} (hi : i.isUpdate = true ∨ i = .final) {s : State} (hd : s.arch.done = true) :
    ∃ e, exec i s = .next (s.withArch (s.arch.raise e)) := by
  obtain hu | rfl := hi
  · exact ⟨.updateAfterFinal, by rw [exec_update hu, State.update, Arch.guarded_eq_raise_of_done _ _ hd]⟩
  · exact ⟨.finalAfterFinal, by rw [exec_final, Arch.guarded_eq_raise_of_done _ _ hd]⟩

/-- Settles O15: INIT and `rst` load the reset tuple, and the digest reads see through the error action. -/
theorem poisonedCoreIgnoresAllButInit : Obligations.PoisonedCoreIgnoresAllButInit := by
  refine ⟨fun _ _ => execWord_of_err, ?_, ?_, ?_⟩
  · intro w s h
    exact ⟨_, (execWord_of_ok h s).trans (exec_init s), rfl⟩
  · intro s c cs hs hr
    obtain ⟨t, ht, harch⟩ := step_of_rst hs hr
    exact ⟨t, ht, harch ▸ rfl⟩
  · intro i s t u a hi hd hready ht hu h1 h4
    obtain ⟨e, he⟩ := exec_eq_raise_of_done hi hd
    obtain rfl := Host.Outcome.next.inj (he.symm.trans ht)
    obtain ⟨-, -, hdigest⟩ := digestReadsShowTheStateOnlyWhenDone
    exact hdigest s _ u e a hready h1 h4 rfl hu

end Sys2Proof.Machine
end

section
/-! PROOFS. The reset edge of 70_reset_and_hazards.md R230: the state after a cycle with `rst = 1` is written down from the
parts it depends on, and neither the command, nor `cmd_ready`, nor the architectural tuple is among them. -/

namespace Sys2Proof.Machine

/-- `cmd_ready` is 0 in a cycle with `rst = 1` (R230). -/
theorem State.begin_of_rst {c : Cycle} (s : State) (hr : c.rst = true) : s.begin c = s.withReady false := by
  simp [State.begin, hr]

/-- The reset tuple, with what the machine keeps beside the tuple: the last sample, the draws and the rest of the schedule. -/
def State.cleared (s : State) (rise : Bool) : State := ⟨Arch.reset, rise, s.rdData, s.draws, s.schedule.tail⟩

/-- The state after a cycle `c` with `rst = 1`. A read of that cycle finds `cmd_ready = 0`, so it draws (R235; log 5). -/
def State.afterRst (s : State) (c : Cycle) : State :=
  if c.rd.isSome then (s.cleared c.rise).drawRdData else s.cleared c.rise

theorem State.afterRst_arch (s : State) (c : Cycle) : (s.afterRst c).arch = Arch.reset := by
  unfold State.afterRst
  split <;> rfl

/-- The reset edge after the read of its cycle. -/
theorem State.resetEdge_afterRead {c : Cycle} (s : State) (hr : c.rst = true) :
    ((s.withSchedule s.schedule.tail).afterRead c).resetEdge c = s.afterRst c := by
  unfold State.afterRead State.afterRst
  rw [State.begin_of_rst _ hr]
  cases c.rd with
  | none => rfl
  | some a =>
    exact congrArg (State.resetEdge c) (State.sample_of_busy _ (State.withReady_cmdReady _ _))

/-- A step in a cycle with `rst = 1` accepts nothing and ends in the reset tuple, whatever was in progress (R230). -/
theorem step_eq_afterRst {s : State} {c : Cycle} {cs : List Cycle} (hs : s.schedule = c :: cs) (hr : c.rst = true) :
    step s = .next (s.afterRst c) := by
  have hc : s.nextCycle = c := by simp [State.nextCycle, hs]
  rw [step_eq, hc, edgeStage_reset _ hr, State.resetEdge_afterRead _ hr]

/-- Settles O37: `State.afterRst` reads neither the command on the port nor `cmd_ready` nor the architectural tuple. -/
theorem resetEdgeGivesTheResetState : Obligations.ResetEdgeGivesTheResetState := by
  intro s c cs hs hr
  refine ⟨s.afterRst c, step_eq_afterRst hs hr, s.afterRst_arch c, ?command, ?stateBefore, ?ready⟩
  case command =>
    intro x
    have hkeep : State.afterRst { s with schedule := { c with cmd := x } :: cs } { c with cmd := x } = s.afterRst c := by
      simp [State.afterRst, State.cleared, hs]
    rw [step_eq_afterRst (c := { c with cmd := x }) rfl hr, hkeep]
  case stateBefore =>
    intro r a
    exact step_eq_afterRst (s := { s with cmdReady := r, arch := a }) hs hr
  case ready => rw [State.begin_of_rst _ hr, State.withReady_cmdReady]

end Sys2Proof.Machine
end

section
/-! PROOFS. The canonical encoding of 30_encoding.md: an encoded UPDATE lies in the table row of its N, and its lanes hold
its bytes; no word lies in two rows. -/

namespace Sys2Proof

/-! ### Decoding what the encoder writes -/

/-- A word in the row of the UPDATE with N = `n` decodes to the UPDATE of its first `n` lanes (R73, R74). -/
theorem decodeCommand_of_accepts {w : DWord} (n : BitVec 3)
    (h : CommandRow.accepts ⟨0x00000000FFFFFFFF#64, updateValue n⟩ w = true) :
    decodeCommand w = decodeUpdate n.toNat w := by
  obtain ⟨hdata, hrsv, hcount, hop⟩ := updateValue_fields n
  obtain ⟨hrsv', hcount', hop'⟩ := (accepts_lowMask_iff w _ hdata).mp h
  simp [decodeCommand, hrsv', hcount', hop', hrsv, hcount, hop]

/-- A value of the low half holds nothing in a lane. -/
theorem lane_of_lt (k : Nat) {v : DWord} (hv : v.toNat < 2 ^ 32) : lane k v = 0 := by
  have hdiv : v.toNat / 2 ^ (32 + 8 * k) = 0 :=
    Nat.div_eq_of_lt (hv.trans_le (Nat.pow_le_pow_right (by decide) (by omega)))
  rw [Machine.lane_eq_ofNat_div, hdiv]
  rfl

/-- Settles O2: a read by its address, INIT and FINAL by their words, and an UPDATE by its row and its lanes. -/
theorem decodeInvertsEncode : Obligations.DecodeInvertsEncode := by
  intro i
  cases i with
  | updateN1 b0 =>
    refine (decodeCommand_of_accepts 1 (Laws.TableRow.updateN1 b0)).trans ?_
    simp [decodeUpdate, lane_or, lane_inLane, lane_of_lt]
  | updateN2 b0 b1 =>
    refine (decodeCommand_of_accepts 2 (Laws.TableRow.updateN2 b0 b1)).trans ?_
    simp [decodeUpdate, lane_or, lane_inLane, lane_inLane_ne, lane_of_lt]
  | updateN3 b0 b1 b2 =>
    refine (decodeCommand_of_accepts 3 (Laws.TableRow.updateN3 b0 b1 b2)).trans ?_
    simp [decodeUpdate, lane_or, lane_inLane, lane_inLane_ne, lane_of_lt]
  | updateN4 b0 b1 b2 b3 =>
    refine (decodeCommand_of_accepts 4 (Laws.TableRow.updateN4 b0 b1 b2 b3)).trans ?_
    simp [decodeUpdate, lane_or, lane_inLane, lane_inLane_ne, lane_of_lt]
  | init | updateN0 | final => rfl
  | rdStatus | rdDigest0 | rdDigest1 | rdDigest2 | rdDigest3 | rdLenLo | rdLenHi | rdRsvd7 => rfl

/-- Settles O1, by evaluating the decoder. -/
theorem wordsOfTheSpecDecode : Obligations.WordsOfTheSpecDecode := by
  unfold Obligations.WordsOfTheSpecDecode
  decide

/-! ### One word, one row -/

/-- The row of a word is fixed: its mask is the low half's, and its value is the word's low half. -/
theorem row_eq_of_accepts {r : CommandRow} {w : DWord} (hr : r ∈ commandRows) (h : r.accepts w = true) :
    r = ⟨0x00000000FFFFFFFF#64, w &&& 0x00000000FFFFFFFF#64⟩ := by
  obtain ⟨mask, value⟩ := r
  obtain ⟨rfl, -⟩ := commandRows_fields _ hr
  exact congrArg (CommandRow.mk _) (beq_iff_eq.mp h).symm

/-- Settles O6: both rows are the one that the word's low half fixes, and the table lists no row twice. -/
theorem commandRowsDoNotOverlap : Obligations.CommandRowsDoNotOverlap := by
  intro w j k r q hj hk hr hq
  have heq : commandRows[j]? = commandRows[k]? := by
    rw [hj, hk, row_eq_of_accepts (List.mem_of_getElem? hj) hr, row_eq_of_accepts (List.mem_of_getElem? hk) hq]
  have hnodup : commandRows.Nodup := by decide
  obtain ⟨hlt, -⟩ := List.getElem?_eq_some_iff.mp hj
  exact (List.getElem?_inj hlt hnodup).mp heq

end Sys2Proof
end

section
/-! PROOFS. One clock cycle at the transaction level: the whole next state of a step is written down from the event of its
cycle (70_reset_and_hazards.md R230, R233) and from its read (R235), and each claim about one step reads it off. -/

namespace Sys2Proof.Machine

/-! ### The whole next state -/

/-- A sample in cycle `c` would be valid: `cmd_ready = 1` and `rst = 0` (R235, R239). -/
def State.readValid (c : Cycle) (s : State) : Bool := s.cmdReady && !c.rst

/-- `rd_data` as last sampled, after cycle `c` (R235; log 5). -/
def State.rdDataAfter (c : Cycle) (s : State) : Word :=
  match c.rd with
  | none => s.rdData
  | some a => if s.readValid c then s.arch.read a else Config.freeRdData s.draws

/-- The draw counter after cycle `c`: an invalid sample draws (log 5). -/
def State.drawsAfter (c : Cycle) (s : State) : Nat := if c.rd.isSome && !s.readValid c then s.draws + 1 else s.draws

theorem State.afterRead_eq (c : Cycle) (s : State) :
    s.afterRead c = ⟨s.arch, s.readValid c, s.rdDataAfter c, s.drawsAfter c, s.schedule⟩ := by
  unfold State.afterRead State.rdDataAfter State.drawsAfter
  cases c.rd with
  | none => rfl
  | some a =>
    cases hv : s.readValid c with
    | true => exact (State.sample_of_ready _ hv).trans (congrArg (fun r => State.mk _ r _ _ _) hv)
    | false => exact (State.sample_of_busy _ hv).trans (congrArg (fun r => State.mk _ r _ _ _) hv)

/-- The state after cycle `c`, which leaves `cs` to come: the event of the cycle on the tuple, `cmd_ready` by the
handshake, and what its read sampled. -/
def State.afterCycle (c : Cycle) (cs : List Cycle) (s : State) : State :=
  ⟨runEvents s.arch (c.event s.cmdReady).toList, c.readyAfter s.cmdReady, s.rdDataAfter c, s.drawsAfter c, cs⟩

/-- EXEC of an accepted word, with the tuple of the transaction level. -/
theorem execWord_eq_withArch (w : DWord) (s : State) : execWord w s = .next (s.withArch (s.arch.execWord w)) :=
  execFollowsThePrecedenceOrder w s

/-- What one step does, by `rst`, then `cmd_ready`, then `cmd_valid`. -/
theorem step_eq_afterCycle (s : State) : step s = .next (s.afterCycle s.nextCycle s.schedule.tail) := by
  rw [step_eq, State.afterRead_eq, State.afterCycle, Cycle.event, Cycle.readyAfter]
  cases hrst : s.nextCycle.rst with
  | true => rw [edgeStage_reset _ hrst]; rfl
  | false =>
    cases hready : s.cmdReady with
    | false => rw [edgeStage_busy hrst (by simp [State.readValid, hready])]; rfl
    | true =>
      have hvalid : (s.withSchedule s.schedule.tail).readValid s.nextCycle = true := by
        simp [State.readValid, hready, hrst]
      cases hcmd : s.nextCycle.cmd with
      | none => rw [edgeStage_none hrst hvalid hcmd, hvalid]; rfl
      | some w => rw [edgeStage_accept hrst hvalid hcmd, execWord_eq_withArch]; rfl

/-- The same, for a schedule that is written out. -/
theorem step_of_schedule {s : State} {c : Cycle} {cs : List Cycle} (hs : s.schedule = c :: cs) :
    step s = .next (s.afterCycle c cs) := by
  have hc : s.nextCycle = c := by simp [State.nextCycle, hs]
  rw [step_eq_afterCycle, hc, hs, List.tail_cons]

/-- Settles O43. -/
theorem everyStepAnswersNext : Obligations.EveryStepAnswersNext := fun s => ⟨_, step_eq_afterCycle s⟩

/-! ### The read of a cycle -/

theorem State.readValid_of_ready {s : State} {c : Cycle} (hready : s.cmdReady = true) (hrst : c.rst = false) :
    s.readValid c = true := by
  simp [State.readValid, hready, hrst]

theorem State.rdDataAfter_of_none {s : State} {c : Cycle} (h : c.rd = none) : s.rdDataAfter c = s.rdData := by
  simp [State.rdDataAfter, h]

theorem State.rdDataAfter_of_valid {s : State} {c : Cycle} {a : BitVec 3} (h : c.rd = some a)
    (hv : s.readValid c = true) : s.rdDataAfter c = s.arch.read a := by
  simp [State.rdDataAfter, h, hv]

theorem State.rdDataAfter_of_invalid {s : State} {c : Cycle} {a : BitVec 3} (h : c.rd = some a)
    (hv : s.readValid c = false) : s.rdDataAfter c = Config.freeRdData s.draws := by
  simp [State.rdDataAfter, h, hv]

theorem State.drawsAfter_of_none {s : State} {c : Cycle} (h : c.rd = none) : s.drawsAfter c = s.draws := by
  simp [State.drawsAfter, h]

theorem State.drawsAfter_of_valid {s : State} {c : Cycle} (hv : s.readValid c = true) : s.drawsAfter c = s.draws := by
  simp [State.drawsAfter, hv]

/-- Settles O42: under the duty a cycle samples nothing, or samples validly. -/
theorem readDutyKeepsFreeValuesAway : Obligations.ReadDutyKeepsFreeValuesAway := by
  intro s hduty
  refine ⟨_, step_eq_afterCycle s, ?_⟩
  cases hrd : s.nextCycle.rd with
  | none => exact ⟨State.drawsAfter_of_none hrd, nofun⟩
  | some b =>
    obtain ⟨hready, hrst⟩ := hduty (by rw [hrd]; rfl)
    have hvalid := State.readValid_of_ready hready hrst
    exact ⟨State.drawsAfter_of_valid hvalid, fun a ha => State.rdDataAfter_of_valid (hrd.trans ha) hvalid⟩

/-! ### The event of a cycle -/

theorem Cycle.event_accepted {c : Cycle} {w : DWord} (hrst : c.rst = false) (hcmd : c.cmd = some w) :
    c.event true = some (.accepted w) ∧ c.readyAfter true = false := by
  simp [Cycle.event, Cycle.readyAfter, hrst, hcmd]

theorem Cycle.event_none_of_no_cmd {c : Cycle} (hrst : c.rst = false) (hcmd : c.cmd = none) :
    c.event true = none ∧ c.readyAfter true = true := by
  simp [Cycle.event, Cycle.readyAfter, hrst, hcmd]

theorem Cycle.event_none_of_busy {c : Cycle} (hrst : c.rst = false) :
    c.event false = none ∧ c.readyAfter false = c.rise := by
  simp [Cycle.event, Cycle.readyAfter, hrst]

/-- A cycle that accepts a word runs EXEC on the tuple, lowers `cmd_ready` and draws nothing. -/
theorem step_of_accepted {s : State} {c : Cycle} {cs : List Cycle} {w : DWord} (hs : s.schedule = c :: cs)
    (hrst : c.rst = false) (hcmd : c.cmd = some w) (hready : s.cmdReady = true) :
    step s = .next ⟨s.arch.execWord w, false, s.rdDataAfter c, s.draws, cs⟩ := by
  obtain ⟨hevent, hfall⟩ := Cycle.event_accepted hrst hcmd
  rw [step_of_schedule hs, State.afterCycle, hready, hevent, hfall,
    State.drawsAfter_of_valid (State.readValid_of_ready hready hrst)]
  rfl

/-- A cycle with `cmd_ready = 1` and no command only samples its read. -/
theorem step_of_no_cmd {s : State} {c : Cycle} {cs : List Cycle} (hs : s.schedule = c :: cs)
    (hrst : c.rst = false) (hcmd : c.cmd = none) (hready : s.cmdReady = true) :
    step s = .next ⟨s.arch, true, s.rdDataAfter c, s.draws, cs⟩ := by
  obtain ⟨hevent, hstay⟩ := Cycle.event_none_of_no_cmd hrst hcmd
  rw [step_of_schedule hs, State.afterCycle, hready, hevent, hstay,
    State.drawsAfter_of_valid (State.readValid_of_ready hready hrst)]
  rfl

/-- A cycle with `cmd_ready = 0` and `rst = 0` has no event; its `rise` is `cmd_ready` in the next. -/
theorem step_of_busy {s : State} {c : Cycle} {cs : List Cycle} (hs : s.schedule = c :: cs)
    (hrst : c.rst = false) (hready : s.cmdReady = false) :
    step s = .next ⟨s.arch, c.rise, s.rdDataAfter c, s.drawsAfter c, cs⟩ := by
  obtain ⟨hevent, hrise⟩ := Cycle.event_none_of_busy hrst
  rw [step_of_schedule hs, State.afterCycle, hready, hevent, hrise]
  rfl

/-- Settles O36, by the validity of the sample. -/
theorem readPortValidity : Obligations.ReadPortValidity := by
  refine ⟨?noCommand, ?command, ?invalid⟩
  case noCommand =>
    intro s c cs a hs hrst hcmd hrd hready
    exact ⟨_, step_of_no_cmd hs hrst hcmd hready,
      State.rdDataAfter_of_valid hrd (State.readValid_of_ready hready hrst), rfl⟩
  case command =>
    intro s c cs a w hs hrst hcmd hrd hready
    exact ⟨_, step_of_accepted hs hrst hcmd hready,
      State.rdDataAfter_of_valid hrd (State.readValid_of_ready hready hrst), rfl⟩
  case invalid =>
    intro s c cs a hs hrd hinvalid
    have hv : s.readValid c = false := by
      obtain h | h := hinvalid <;> simp [State.readValid, h]
    exact ⟨_, step_of_schedule hs, State.rdDataAfter_of_invalid hrd hv⟩

/-- Settles O38: nothing of a busy cycle's next state is read from its command. -/
theorem commandsAreIgnoredWhileNotReady : Obligations.CommandsAreIgnoredWhileNotReady := by
  intro s c cs hs hrst hready
  refine ⟨_, step_of_busy hs hrst hready, rfl, rfl, fun x => ?_⟩
  exact step_of_busy (s := s.withSchedule ({ c with cmd := x } :: cs)) (c := { c with cmd := x }) rfl hrst hready

/-- Settles O34. -/
theorem stepRunsTheRead : Obligations.StepRunsTheRead := by
  intro s c cs a hs hrst hcmd hrd hready
  rw [step_of_no_cmd hs hrst hcmd hready, State.rdDataAfter_of_valid hrd (State.readValid_of_ready hready hrst),
    ← hready]
  exact (exec_decodeRead_of_ready a (s := s.withSchedule cs) hready).symm

/-- Settles O33. -/
theorem stepRunsTheAcceptedCommand : Obligations.StepRunsTheAcceptedCommand := by
  intro s c cs w i hs hrst hcmd hrd hready hw
  refine ⟨_, (execWord_of_ok hw _).symm.trans (execWord_eq_withArch w _), ?_⟩
  rw [step_of_accepted hs hrst hcmd hready, State.rdDataAfter_of_none hrd]
  rfl

/-- The words of R75's four classes are illegal: each breaks a field test that every legal word passes. -/
theorem decodeCommand_error_of_fields {w : DWord}
    (h : w.toNat / 128 % 2 ^ 25 ≠ 0 ∨ (w.toNat % 16 ≠ 1 ∧ w.toNat % 16 ≠ 2 ∧ w.toNat % 16 ≠ 3) ∨
      ((w.toNat % 16 = 1 ∨ w.toNat % 16 = 3) ∧ w.toNat / 16 % 8 ≠ 0) ∨
      (w.toNat % 16 = 2 ∧ 4 < w.toNat / 16 % 8)) : ∃ r, decodeCommand w = .error r := by
  obtain ⟨-, -, -, herror⟩ := decoderFollowsItsFieldTests w _ _ _ rfl rfl rfl
  rw [herror]
  omega

/-- Settles O7: an illegal word is accepted like any other, and EXEC of it is the error action. -/
theorem illegalWordsOnlyRaiseCodeThree : Obligations.IllegalWordsOnlyRaiseCodeThree := by
  rintro s c cs w _ _ _ rfl rfl rfl hclass hs hrst hcmd hready
  obtain ⟨r, hr⟩ := decodeCommand_error_of_fields hclass
  refine ⟨s.rdDataAfter c, ?_, State.rdDataAfter_of_none,
    fun a ha => State.rdDataAfter_of_valid ha (State.readValid_of_ready hready hrst)⟩
  rw [step_of_accepted hs hrst hcmd hready, Arch.execWord_of_error hr]
  rfl

/-! ### A placed word -/

/-- A number that decodes is the number of a port word. -/
theorem exists_portWord_of_decodeTableWord {nbits w : Nat} {i : Instr} (h : decodeTableWord nbits w = some i) :
    ∃ p, portWordOfTable nbits w = some p ∧ decode p = .ok i := by
  unfold decodeTableWord at h
  split at h
  next p hp =>
    refine ⟨p, hp, ?_⟩
    rcases hd : decode p with r | j
    · rw [hd] at h; cases h
    · rw [hd] at h; exact congrArg _ (Option.some.inj h)
  · cases h

/-- Settles O35: the placed cycle accepts the command word or samples the read. -/
theorem placedWordIsRunNext : Obligations.PlacedWordIsRunNext := by
  intro s nbits w i h
  obtain ⟨p, hp, hd⟩ := exists_portWord_of_decodeTableWord h
  rw [State.withFetchWord, hp]
  cases p with
  | cmd v =>
    have hv : decodeCommand v = .ok i := hd
    refine ⟨_, (execWord_of_ok hv _).symm.trans (execWord_eq_withArch v _), ?_⟩
    rw [decodeCommand_not_read hv]
    exact step_of_accepted (c := cycleOf (.cmd v)) rfl rfl rfl rfl
  | rd a =>
    obtain rfl : decodeRead a = i := Except.ok.inj hd
    refine ⟨_, exec_decodeRead_of_ready a rfl, ?_⟩
    rw [decodeRead_isRead]
    exact step_of_no_cmd (c := cycleOf (.rd a)) rfl rfl rfl rfl

end Sys2Proof.Machine
end

section
/-! PROOFS. The outcomes of an accepted word and of a cycle, as one inversion each, and what every step keeps by them: the
invariants of 10_state.md R33, the message, and the writers of STATE, DONE, ERR, ECODE and LEN. -/

namespace Sys2Proof.Machine

/-! ### What an accepted word can do -/

theorem ne_init_of_isUpdate {i : Instr} (h : i.isUpdate = true) : i ≠ .init := by rintro rfl; cases h

/-- The tuples that EXEC of the word `w` can leave, with what the tests of 40_accumulator.md R100 found on
the way to each. -/
inductive Arch.Outcome (w : DWord) (a : Arch) : Arch → Prop where
  | restarted (hw : decodeCommand w = .ok .init) : Outcome w a Arch.reset
  | absorbed {i : Instr} (hw : decodeCommand w = .ok i) (hu : i.isUpdate = true) (he : a.err = false)
      (hd : a.done = false) : Outcome w a (a.absorbAll i.bytes)
  | finished (hw : decodeCommand w = .ok .final) (he : a.err = false) (hd : a.done = false) : Outcome w a a.finish
  | poisoned (hw : decodeCommand w ≠ .ok .init) (he : a.err = true) : Outcome w a a
  | illegal {r : CommandReject} (hw : decodeCommand w = .error r) (he : a.err = false) :
      Outcome w a { a with err := true, ecode := .illegalCmd }
  | late {i : Instr} {code : ErrorCode} (hw : decodeCommand w = .ok i) (hi : i ≠ .init)
      (hcode : code = .updateAfterFinal ∨ code = .finalAfterFinal) (he : a.err = false) (hd : a.done = true) :
      Outcome w a { a with err := true, ecode := code }

/-- The state checks of an UPDATE or FINAL, as outcomes of its word. -/
theorem Arch.guarded_outcome {w : DWord} {i : Instr} (hw : decodeCommand w = .ok i) (hi : i ≠ .init) {a : Arch}
    {code : ErrorCode} (hcode : code = .updateAfterFinal ∨ code = .finalAfterFinal) {f : Arch → Arch}
    (hf : a.err = false → a.done = false → a.Outcome w (f a)) : a.Outcome w (a.guarded code f) := by
  cases he : a.err with
  | true =>
    rw [Arch.guarded_of_err _ _ he]
    exact .poisoned (by simpa [hw] using hi) he
  | false =>
    cases hd : a.done with
    | true =>
      rw [Arch.guarded_of_done _ _ he hd, Arch.raise_of_no_err _ he]
      exact .late hw hi hcode he hd
    | false =>
      rw [Arch.guarded_of_active _ _ he hd]
      exact hf he hd

/-- EXEC has no other outcome. -/
theorem Arch.execWord_outcome (w : DWord) (a : Arch) : a.Outcome w (a.execWord w) := by
  rcases h : decodeCommand w with r | i
  · rw [Arch.execWord_of_error h]
    cases he : a.err with
    | true =>
      rw [Arch.raise_of_err _ he]
      exact .poisoned (by simp [h]) he
    | false =>
      rw [Arch.raise_of_no_err _ he]
      exact .illegal h he
  · obtain ⟨rfl, -⟩ | ⟨rfl, -⟩ | ⟨hu, -⟩ := decodeCommand_ok_cases h
    · rw [Arch.execWord_of_init h]
      exact .restarted h
    · rw [Arch.execWord_of_final h]
      exact Arch.guarded_outcome h nofun (.inr rfl) (.finished h)
    · rw [Arch.execWord_of_update h hu]
      exact Arch.guarded_outcome h (ne_init_of_isUpdate hu) (.inl rfl) (.absorbed h hu)

/-! ### What a step can do to the tuple -/

/-- The tuples that a cycle with event `e` can leave. -/
inductive Arch.EventOutcome (a : Arch) : Option Event → Arch → Prop where
  | quiet : EventOutcome a none a
  | reset : EventOutcome a (some .reset) Arch.reset
  | accepted {w : DWord} {a' : Arch} (h : a.Outcome w a') : EventOutcome a (some (.accepted w)) a'

/-- A step applies the event of its cycle to the tuple. -/
theorem step_arch {s t : State} (h : step s = .next t) :
    t.arch = runEvents s.arch (s.nextCycle.event s.cmdReady).toList := by
  obtain rfl := Host.Outcome.next.inj ((step_eq_afterCycle s).symm.trans h)
  rfl

/-- A step leaves the tuple its event leaves. -/
theorem step_eventOutcome {s t : State} (h : step s = .next t) :
    s.arch.EventOutcome (s.nextCycle.event s.cmdReady) t.arch := by
  rw [step_arch h]
  cases s.nextCycle.event s.cmdReady with
  | none => exact .quiet
  | some e =>
    cases e with
    | reset => exact .reset
    | accepted w => exact .accepted (s.arch.execWord_outcome w)

/-! ### The invariants -/

theorem Arch.reset_inv : Arch.reset.Inv where
  pend_lt := by decide
  done_pend := nofun
  ecode_err := by decide
  ecode_done := by decide
  len_bytes := by decide
  len_pend _ := by decide

/-- LEN's step in Nat arithmetic. -/
theorem add_eight_toNat (l : DWord) : (l + 8).toNat = (l.toNat + 8) % 2 ^ 64 := BitVec.toNat_add l 8

/-- A byte absorbed in phase ACTIVE keeps LEN and PEND in step: LEN wraps at a multiple of a block's 512 bits. -/
theorem Arch.Inv.absorb {a : Arch} (h : a.Inv) (hd : a.done = false) (x : Byte) : (a.absorb x).Inv where
  pend_lt := Arch.absorb_pend_lt x h.pend_lt
  done_pend hd' := by simp [hd] at hd'
  ecode_err := by simpa using h.ecode_err
  ecode_done := by simpa using h.ecode_done
  len_bytes := by
    have := h.len_bytes
    rw [Arch.absorb_len, add_eight_toNat]
    omega
  len_pend _ := by
    have hbytes := h.len_bytes
    have hpend := h.len_pend hd
    rw [Arch.absorb_len, add_eight_toNat]
    by_cases hfull : a.pend.length + 1 = 64
    · rw [Arch.absorb_of_full x hfull, List.length_nil]
      omega
    · have hlt := h.pend_lt
      rw [Arch.absorb_of_room x hfull, List.length_append, List.length_singleton]
      omega

theorem Arch.Inv.absorbAll {a : Arch} (h : a.Inv) (hd : a.done = false) (bs : List Byte) : (a.absorbAll bs).Inv := by
  induction bs generalizing a with
  | nil => exact h
  | cons x bs ih => exact ih (h.absorb hd x) ((a.absorb_done x).trans hd)

/-- FINAL leaves phase DONE, with nothing pending. -/
theorem Arch.Inv.finish {a : Arch} (h : a.Inv) : a.finish.Inv where
  pend_lt := Nat.zero_lt_succ _
  done_pend _ := rfl
  ecode_err := h.ecode_err
  ecode_done _ := rfl
  len_bytes := h.len_bytes
  len_pend hd := nomatch hd

/-- The first error records a code, and one of the codes 1 and 2 in phase DONE only. -/
theorem Arch.Inv.fail {a : Arch} (h : a.Inv) {code : ErrorCode} (hcode : code ≠ .none)
    (hdone : code = .updateAfterFinal ∨ code = .finalAfterFinal → a.done = true) :
    Arch.Inv { a with err := true, ecode := code } where
  pend_lt := h.pend_lt
  done_pend := h.done_pend
  ecode_err := iff_of_false hcode nofun
  ecode_done := hdone
  len_bytes := h.len_bytes
  len_pend := h.len_pend

theorem Arch.Inv.outcome {a a' : Arch} {w : DWord} (h : a.Inv) (ho : a.Outcome w a') : a'.Inv := by
  cases ho with
  | restarted _ => exact Arch.reset_inv
  | absorbed _ _ _ hd => exact h.absorbAll hd _
  | finished _ _ _ => exact h.finish
  | poisoned _ _ => exact h
  | illegal _ _ => exact h.fail nofun (by simp)
  | late _ _ hcode _ hd => exact h.fail (by rintro rfl; simp at hcode) fun _ => hd

/-- Settles O44, by the outcomes of the cycle's event. -/
theorem stepKeepsTheInvariants : Obligations.StepKeepsTheInvariants := by
  intro s t hinv hstep
  have ho := step_eventOutcome hstep
  generalize s.nextCycle.event s.cmdReady = e, t.arch = a' at ho ⊢
  cases ho with
  | quiet => exact hinv
  | reset => exact Arch.reset_inv
  | accepted ho => exact hinv.outcome ho

/-! ### The message -/

/-- Blocks in order are some of them and then the rest. -/
theorem compressBlocks_add (m n : Nat) (st : HashWords) (bs : List Byte) :
    compressBlocks (m + n) st bs = compressBlocks n (compressBlocks m st bs) (bs.drop (64 * m)) := by
  induction m generalizing st bs with
  | zero => simp
  | succ m ih =>
    rw [Nat.succ_add, compressBlocks_succ, ih, compressBlocks_succ, List.drop_drop, Nat.mul_succ, Nat.add_comm 64]

/-- What follows the compressed blocks does not matter. -/
theorem compressBlocks_append {n : Nat} {bs : List Byte} (h : 64 * n ≤ bs.length) (st : HashWords) (cs : List Byte) :
    compressBlocks n st (bs ++ cs) = compressBlocks n st bs := by
  induction n generalizing st bs with
  | zero => rfl
  | succ n ih =>
    rw [compressBlocks_succ, compressBlocks_succ, List.take_append_of_le_length (by omega),
      List.drop_append_of_le_length (by omega), ih (by rw [List.length_drop]; omega)]

/-- The bytes of a message beyond its complete blocks (R33 point 3). -/
def pendingTail (msg : List Byte) : List Byte := msg.drop (64 * (msg.length / 64))

theorem pendingTail_length (msg : List Byte) : (pendingTail msg).length = msg.length % 64 := by
  rw [pendingTail, List.length_drop]
  omega

/-- The complete blocks of a message that goes on are its own and those of its tail that goes on. -/
theorem blocks_append (msg more : List Byte) :
    (msg ++ more).length / 64 = msg.length / 64 + (pendingTail msg ++ more).length / 64 := by
  rw [List.length_append, List.length_append, pendingTail_length]
  omega

/-- Behind the complete blocks of a message that goes on stands its tail that goes on. -/
theorem drop_blocks_append (msg more : List Byte) :
    (msg ++ more).drop (64 * (msg.length / 64)) = pendingTail msg ++ more :=
  List.drop_append_of_le_length (by omega)

theorem pendingTail_append (msg more : List Byte) :
    pendingTail (pendingTail msg ++ more) = pendingTail (msg ++ more) := by
  conv => rhs; rw [pendingTail, blocks_append, Nat.mul_add, ← List.drop_drop, drop_blocks_append]
  rfl

/-- A message that goes on is compressed by its complete blocks, and then as its tail that goes on. -/
theorem compressBlocks_message_append (msg more : List Byte) (st : HashWords) :
    compressBlocks ((pendingTail msg ++ more).length / 64) (compressBlocks (msg.length / 64) st msg)
        (pendingTail msg ++ more) = compressBlocks ((msg ++ more).length / 64) st (msg ++ more) := by
  have hle : 64 * (msg.length / 64) ≤ msg.length := by omega
  rw [blocks_append msg, compressBlocks_add, compressBlocks_append hle, drop_blocks_append]

/-- What PAD adds to a message of `p` bytes (R105). -/
def padding (p : Nat) (l : DWord) : List Byte := [0x80#8] ++ zeros (padZeros p) ++ le64bytes l

theorem pad_eq_append_padding (pb : List Byte) (l : DWord) : pad pb l = pb ++ padding pb.length l := by
  simp [pad, padding]

/-- PAD adds to the tail of a message what it adds to the message. -/
theorem pad_pendingTail (msg : List Byte) (l : DWord) :
    pad (pendingTail msg) l = pendingTail msg ++ padding msg.length l := by
  have hzeros : padZeros (msg.length % 64) = padZeros msg.length := by simp [padZeros]
  rw [pad_eq_append_padding, pendingTail_length, padding, hzeros, padding]

theorem Arch.reset_represents : Arch.reset.Represents [] where
  len_eq := rfl
  active_pend _ := rfl
  active_regs _ := rfl
  done_pend := nofun
  done_regs := nofun

/-- Settles O45. -/
theorem resetMeetsTheInvariants : Obligations.ResetMeetsTheInvariants := ⟨Arch.reset_inv, Arch.reset_represents⟩

/-- In phase ACTIVE a core that holds a message goes on to hold it with the absorbed bytes. -/
theorem Arch.Represents.absorbAll {a : Arch} {msg : List Byte} (h : a.Represents msg) (hd : a.done = false)
    (bs : List Byte) : (a.absorbAll bs).Represents (msg ++ bs) := by
  have hpend : a.pend = pendingTail msg := h.active_pend hd
  have hlt : a.pend.length < 64 := by
    rw [hpend, pendingTail_length]
    omega
  have hd' : (a.absorbAll bs).done = false := (a.absorbAll_done bs).trans hd
  have hdrain := Arch.absorbAll_eq_drain hlt bs
  refine ⟨?_, fun _ => ?_, fun _ => ?_, fun ht => ?_, fun ht => ?_⟩
  · rw [hdrain, List.length_append, Nat.mul_add, BitVec.ofNat_add, ← h.len_eq]
    rfl
  · rw [hdrain, hpend]
    exact pendingTail_append msg bs
  · rw [hdrain, hpend, ← compressBlocks_message_append, ← h.active_regs hd]
    rfl
  · cases hd'.symm.trans ht
  · cases hd'.symm.trans ht

/-- FINAL turns a core that holds a message into one that holds its MD5 (R109). -/
theorem Arch.Represents.finish {a : Arch} {msg : List Byte} (h : a.Represents msg) (hd : a.done = false) :
    a.finish.Represents msg where
  len_eq := h.len_eq
  active_pend := nofun
  active_regs := nofun
  done_pend _ := rfl
  done_regs _ := by
    have hpend : a.pend = pendingTail msg := h.active_pend hd
    rw [Arch.finish, hpend, pad_pendingTail, h.active_regs hd, compressBlocks_message_append, ← pad_eq_append_padding,
      h.len_eq]
    rfl

/-- The error action keeps the message. -/
theorem Arch.Represents.fail {a : Arch} {msg : List Byte} (h : a.Represents msg) (code : ErrorCode) :
    Arch.Represents { a with err := true, ecode := code } msg :=
  ⟨h.len_eq, h.active_pend, h.active_regs, h.done_pend, h.done_regs⟩

/-! ### The message after a word, by its outcome -/

theorem messageAfter_of_error {w : DWord} {r : CommandReject} (h : decodeCommand w = .error r) (a : Arch)
    (msg : List Byte) : messageAfter w a msg = msg := by
  simp [messageAfter, h]

theorem messageAfter_of_init {w : DWord} (h : decodeCommand w = .ok .init) (a : Arch) (msg : List Byte) :
    messageAfter w a msg = [] := by
  simp [messageAfter, h]

theorem messageAfter_of_active {w : DWord} {i : Instr} (h : decodeCommand w = .ok i) (hi : i ≠ .init) {a : Arch}
    (he : a.err = false) (hd : a.done = false) (msg : List Byte) : messageAfter w a msg = msg ++ i.bytes := by
  simp [messageAfter, h, hi, he, hd]

theorem messageAfter_of_no_effect {w : DWord} (h : decodeCommand w ≠ .ok .init) {a : Arch}
    (ha : a.err = true ∨ a.done = true) (msg : List Byte) : messageAfter w a msg = msg := by
  rcases hw : decodeCommand w with r | i
  · exact messageAfter_of_error hw a msg
  · have hi : i ≠ .init := by rintro rfl; exact h hw
    simp [messageAfter, hw, hi, ha]

theorem Arch.Represents.outcome {a a' : Arch} {msg : List Byte} {w : DWord} (h : a.Represents msg)
    (ho : a.Outcome w a') : a'.Represents (messageAfter w a msg) := by
  cases ho with
  | restarted hw =>
    rw [messageAfter_of_init hw]
    exact Arch.reset_represents
  | absorbed hw hu he hd =>
    rw [messageAfter_of_active hw (ne_init_of_isUpdate hu) he hd]
    exact h.absorbAll hd _
  | finished hw he hd =>
    rw [messageAfter_of_active hw nofun he hd]
    exact (List.append_nil msg).symm ▸ h.finish hd
  | poisoned hw he =>
    rw [messageAfter_of_no_effect hw (.inl he)]
    exact h
  | illegal hw _ =>
    rw [messageAfter_of_error hw]
    exact h.fail _
  | late hw hi _ _ hd =>
    rw [messageAfter_of_no_effect (by simpa [hw] using hi) (.inr hd)]
    exact h.fail _

/-- Settles O46, by the outcomes of the cycle's event. -/
theorem stepKeepsTheMessage : Obligations.StepKeepsTheMessage := by
  intro s t msg h hstep
  have ho := step_eventOutcome hstep
  generalize s.nextCycle.event s.cmdReady = e, t.arch = a' at ho ⊢
  cases ho with
  | quiet => exact h
  | reset => exact Arch.reset_represents
  | accepted ho => exact h.outcome ho

/-! ### Who writes STATE, DONE, ERR and ECODE, and LEN -/

/-- Bytes that complete no block leave STATE. -/
theorem Arch.absorbAll_regs_of_lt {a : Arch} {bs : List Byte} (h : a.pend.length + bs.length < 64) :
    (a.absorbAll bs).regs = a.regs := by
  rw [Arch.absorbAll_eq_drain (by omega), Arch.drain_of_lt _ (by rwa [List.length_append])]

/-- LEN counts the bits of the absorbed bytes. -/
theorem Arch.absorbAll_len (a : Arch) (bs : List Byte) :
    (a.absorbAll bs).len = a.len + BitVec.ofNat 64 (8 * bs.length) := by
  induction bs generalizing a with
  | nil => simp
  | cons x bs ih =>
    rw [Arch.absorbAll_cons, ih, Arch.absorb_len, BitVec.add_assoc, List.length_cons, Nat.mul_succ, Nat.add_comm,
      BitVec.ofNat_add]
    rfl

/-- Settles O52: of the outcomes, the restart, an UPDATE past a block's end and FINAL write STATE. -/
theorem onlyListedEventsWriteTheStateRegister : Obligations.OnlyListedEventsWriteTheStateRegister := by
  intro s t hlt hstep hregs
  have ho := step_eventOutcome hstep
  generalize s.nextCycle.event s.cmdReady = e, t.arch = a' at ho hregs ⊢
  cases ho with
  | quiet => exact absurd rfl hregs
  | reset => exact .inl rfl
  | accepted ho =>
    cases ho with
    | restarted hw => exact .inr ⟨_, _, rfl, hw, .inl rfl⟩
    | absorbed hw hu he hd =>
      have hblock : 64 ≤ s.arch.pend.length + (Instr.bytes _).length :=
        Nat.le_of_not_lt fun h => hregs (Arch.absorbAll_regs_of_lt h)
      exact .inr ⟨_, _, rfl, hw, .inr (.inl ⟨hu, he, hd, hblock⟩)⟩
    | finished hw he hd => exact .inr ⟨_, _, rfl, hw, .inr (.inr ⟨rfl, he, hd⟩)⟩
    | poisoned _ _ | illegal _ _ | late _ _ _ _ _ => exact absurd rfl hregs

/-- Settles O53: of the outcomes, FINAL sets DONE and the restart clears it. -/
theorem doneIsSetOnlyByFinal : Obligations.DoneIsSetOnlyByFinal := by
  intro s t hstep
  have ho := step_eventOutcome hstep
  generalize s.nextCycle.event s.cmdReady = e, t.arch = a' at ho ⊢
  cases ho with
  | quiet => simp +contextual
  | reset => exact ⟨nofun, fun _ _ => .inl rfl⟩
  | accepted ho =>
    cases ho with
    | restarted hw => exact ⟨nofun, fun _ _ => .inr ⟨_, rfl, hw⟩⟩
    | absorbed _ _ _ _ => simp +contextual
    | finished hw he _ => exact ⟨fun _ _ => ⟨_, rfl, hw, he⟩, nofun⟩
    | poisoned _ _ | illegal _ _ | late _ _ _ _ _ => simp +contextual

/-- Settles O54: of the outcomes, the error actions start from ERR = 0, and the restart clears ERR and ECODE. -/
theorem firstErrorIsKept : Obligations.FirstErrorIsKept := by
  intro s t hstep
  have ho := step_eventOutcome hstep
  generalize s.nextCycle.event s.cmdReady = e, t.arch = a' at ho ⊢
  cases ho with
  | quiet => exact .inl ⟨rfl, rfl⟩
  | reset => exact .inr (.inr ⟨.inl rfl, rfl, rfl⟩)
  | accepted ho =>
    cases ho with
    | restarted hw => exact .inr (.inr ⟨.inr ⟨_, rfl, hw⟩, rfl, rfl⟩)
    | absorbed _ _ _ _ => exact .inl ⟨Arch.absorbAll_err _ _, Arch.absorbAll_ecode _ _⟩
    | finished _ _ _ | poisoned _ _ => exact .inl ⟨rfl, rfl⟩
    | illegal _ he => exact .inr (.inl ⟨he, rfl, nofun, rfl, rfl, rfl, rfl⟩)
    | late _ _ hcode he _ =>
      exact .inr (.inl ⟨he, rfl, by rintro rfl; simp at hcode, rfl, rfl, rfl, rfl⟩)

/-- An UPDATE that takes effect counts the bits of its bytes in LEN, modulo 2^64, and raises no error. -/
theorem Arch.execWord_update_len {w : DWord} {i : Instr} (hw : decodeCommand w = .ok i) (hu : i.isUpdate = true)
    {a : Arch} (he : a.err = false) (hd : a.done = false) :
    (a.execWord w).err = false ∧ (a.execWord w).len.toNat = (a.len.toNat + 8 * i.bytes.length) % 2 ^ 64 := by
  rw [Arch.execWord_of_update hw hu, Arch.guarded_of_active _ _ he hd, Arch.absorbAll_len, add_ofNat_eq_ofNat_toNat_add]
  exact ⟨(a.absorbAll_err _).trans he, BitVec.toNat_ofNat _ _⟩

/-- No other word but INIT writes LEN. -/
theorem Arch.execWord_keeps_len {w : DWord} {a : Arch} (hw : decodeCommand w ≠ .ok .init)
    (h : ∀ i, decodeCommand w = .ok i → i.isUpdate = true → a.err = true ∨ a.done = true) :
    (a.execWord w).len = a.len := by
  have ho := a.execWord_outcome w
  generalize a.execWord w = a' at ho ⊢
  cases ho with
  | restarted hw' => exact absurd hw' hw
  | absorbed hw' hu he hd => simpa [he, hd] using h _ hw' hu
  | finished _ _ _ | poisoned _ _ | illegal _ _ | late _ _ _ _ _ => rfl

/-- Settles O55, by the event of the cycle and, for an accepted word, by its instruction. -/
theorem lengthCountsAcceptedBytesModulo : Obligations.LengthCountsAcceptedBytesModulo := by
  intro s t hstep
  have harch := step_arch hstep
  refine ⟨fun hev => ?reset, fun w i hev hw => ?accepted, ?other⟩
  case reset =>
    rw [harch, hev]
    rfl
  case accepted =>
    rw [hev] at harch
    rw [show t.arch = s.arch.execWord w from harch]
    refine ⟨?_, fun hu => Arch.execWord_update_len hw hu, fun hi hu => ?_⟩
    · rintro rfl
      rw [Arch.execWord_of_init hw]
      rfl
    · refine Arch.execWord_keeps_len (by simpa [hw] using hi) fun j hj => ?_
      obtain rfl := Except.ok.inj (hw.symm.trans hj)
      exact hu
  case other =>
    rintro (hev | ⟨w, r, hev, hw⟩) <;> rw [harch, hev]
    · rfl
    · exact Arch.execWord_keeps_len (by simp [hw]) (by simp [hw])

end Sys2Proof.Machine
end

section
/-! PROOFS. Sequences of commands: UPDATEs in any chunking are one absorption of their bytes (40_accumulator.md sections 3
and 5), and PUSH is such a chunking (30_encoding.md section 6). -/

namespace Sys2Proof.Machine

/-! ### UPDATEs one after another -/

/-- The state checks run once or twice alike: poisoned, both UPDATEs do nothing, and in phase DONE the second finds the
error of the first. -/
theorem Arch.guarded_absorbAll_append (bs cs : List Byte) (a : Arch) :
    a.guarded .updateAfterFinal (Arch.absorbAll (bs ++ cs)) =
      (a.guarded .updateAfterFinal (Arch.absorbAll bs)).guarded .updateAfterFinal (Arch.absorbAll cs) := by
  cases he : a.err with
  | true => simp only [Arch.guarded_of_err _ _ he]
  | false =>
    cases hd : a.done with
    | true =>
      simp only [Arch.guarded_of_done _ _ he hd]
      exact (Arch.guarded_of_err _ _ (Arch.raise_err a _)).symm
    | false =>
      have he' : (a.absorbAll bs).err = false := (a.absorbAll_err bs).trans he
      have hd' : (a.absorbAll bs).done = false := (a.absorbAll_done bs).trans hd
      simp only [Arch.guarded_of_active _ _ he hd, Arch.guarded_of_active _ _ he' hd', Arch.absorbAll_append]

/-- In every state an UPDATE of some bytes is an UPDATE of the first and then one of the rest. -/
theorem State.update_append (bs cs : List Byte) (s : State) : s.update (bs ++ cs) = (s.update bs).update cs :=
  congrArg s.withArch (Arch.guarded_absorbAll_append bs cs s.arch)

/-- Settles O10, a byte at a time. -/
theorem updateIsOneByteAfterAnother : Obligations.UpdateIsOneByteAfterAnother := by
  intro b0 b1 b2 b3 s
  have htwo (x y : Byte) (t : State) : t.update [x, y] = (t.update [x]).update [y] := State.update_append [x] [y] t
  have hthree (x y z : Byte) (t : State) : t.update [x, y, z] = ((t.update [x]).update [y]).update [z] :=
    (State.update_append [x] [y, z] t).trans (htwo y z _)
  exact ⟨congrArg Host.Outcome.next (htwo b0 b1 s), congrArg Host.Outcome.next (hthree b0 b1 b2 s),
    congrArg Host.Outcome.next ((State.update_append [b0] [b1, b2, b3] s).trans (hthree b1 b2 b3 _))⟩

/-- No byte and no phase DONE: nothing to do and nothing to complain of. -/
theorem State.update_nil {s : State} (hd : s.arch.done = false) : s.update [] = s := by
  cases he : s.arch.err with
  | true => rw [State.update, Arch.guarded_of_err _ _ he, State.withArch_self]
  | false => rw [State.update, Arch.guarded_of_active _ _ he hd, Arch.absorbAll_nil, State.withArch_self]

/-- Settles O11. -/
theorem emptyUpdateInPhaseActiveChangesNothing : Obligations.EmptyUpdateInPhaseActiveChangesNothing := fun _ hd =>
  congrArg _ (State.update_nil hd)

/-- An UPDATE that takes effect. -/
theorem State.update_of_active {s : State} (he : s.arch.err = false) (hd : s.arch.done = false) (bs : List Byte) :
    s.update bs = s.withArch (s.arch.absorbAll bs) := by
  rw [State.update, Arch.guarded_of_active _ _ he hd]

/-- UPDATE keeps phase ACTIVE. -/
theorem State.update_active {s : State} (hd : s.arch.done = false) (bs : List Byte) :
    (s.update bs).arch.done = false := by
  cases he : s.arch.err with
  | true => rw [State.update, Arch.guarded_of_err _ _ he, State.withArch_self, hd]
  | false => rw [State.update_of_active he hd, State.withArch_arch, Arch.absorbAll_done, hd]

/-! ### Sequences -/

theorem execAll_cons_of_next {i : Instr} {s t : State} (h : exec i s = .next t) (is : List Instr) :
    execAll (i :: is) s = execAll is t := by
  rw [execAll, h, andThen_next]

theorem execAll_append_of_next {is : List Instr} {s t : State} (h : execAll is s = .next t) (js : List Instr) :
    execAll (is ++ js) s = execAll js t := by
  induction is generalizing s with
  | nil => rw [List.nil_append, Host.Outcome.next.inj h]
  | cons i is ih =>
    obtain ⟨u, hu, h⟩ := andThen_eq_next h
    rw [List.cons_append, execAll_cons_of_next hu, ih h]

/-- In phase ACTIVE any UPDATEs are one UPDATE of the bytes they carry. -/
theorem execAll_updates {is : List Instr} (h : ∀ i ∈ is, i.isUpdate = true) {s : State} (hd : s.arch.done = false) :
    execAll is s = .next (s.update (is.flatMap Instr.bytes)) := by
  induction is generalizing s with
  | nil => exact congrArg _ (State.update_nil hd).symm
  | cons i is ih =>
    obtain ⟨hi, his⟩ := List.forall_mem_cons.mp h
    rw [execAll_cons_of_next (exec_update hi s), ih his (State.update_active hd _), ← State.update_append,
      List.flatMap_cons]

/-- After INIT the UPDATEs' bytes alone count. -/
theorem execAll_init_updates {is : List Instr} (h : ∀ i ∈ is, i.isUpdate = true) (s : State) :
    execAll (.init :: is) s = .next ((s.withArch Arch.reset).update (is.flatMap Instr.bytes)) := by
  rw [execAll_cons_of_next (exec_init s), execAll_updates h rfl]

/-- Settles O48: both chunkings are one UPDATE of the same bytes. -/
theorem chunkingDoesNotMatter : Obligations.ChunkingDoesNotMatter := by
  intro is js s his hjs hbytes
  have hi := execAll_init_updates his s
  have hj := execAll_init_updates hjs s
  rw [← hbytes] at hj
  exact ⟨hi.trans hj.symm, (execAll_append_of_next hi _).trans (execAll_append_of_next hj _).symm⟩

/-- From the reset tuple, absorbing a message and finishing leaves its MD5 and nothing of the way there (R109). -/
theorem Arch.finish_absorbAll_reset (msg : List Byte) :
    (Arch.reset.absorbAll msg).finish =
      ⟨md5Words msg, [], BitVec.ofNat 64 (8 * msg.length), true, false, .none⟩ := by
  have hmsg := (Arch.reset_represents.absorbAll rfl msg).finish (Arch.absorbAll_done _ _)
  have herr : (Arch.reset.absorbAll msg).finish.err = false := Arch.absorbAll_err _ _
  have hecode : (Arch.reset.absorbAll msg).finish.ecode = .none := Arch.absorbAll_ecode _ _
  have hregs := hmsg.done_regs rfl
  have hlen := hmsg.len_eq
  rw [List.nil_append] at hregs hlen
  rw [← hregs, ← hlen, ← herr, ← hecode]
  rfl

/-- UPDATEs from the reset tuple and a FINAL, whatever the rest of the machine holds. -/
theorem execAll_updates_final {is : List Instr} (h : ∀ i ∈ is, i.isUpdate = true) {s : State}
    (hs : s.arch = Arch.reset) :
    execAll (is ++ [.final]) s = .next (s.withArch ⟨md5Words (is.flatMap Instr.bytes), [],
      BitVec.ofNat 64 (8 * (is.flatMap Instr.bytes).length), true, false, .none⟩) := by
  have he : s.arch.err = false := congrArg Arch.err hs
  have hd : s.arch.done = false := congrArg Arch.done hs
  have hfinal := exec_final_of_active (s := s.withArch (s.arch.absorbAll (is.flatMap Instr.bytes)))
    ((Arch.absorbAll_err _ _).trans he) ((Arch.absorbAll_done _ _).trans hd)
  rw [execAll_append_of_next (execAll_updates h hd), State.update_of_active he hd, execAll_cons_of_next hfinal,
    State.withArch_arch, hs, Arch.finish_absorbAll_reset]
  rfl

/-- Settles O49: INIT gives the reset tuple. -/
theorem hashOfAMessageIsItsMd5 : Obligations.HashOfAMessageIsItsMd5 := by
  rintro is s _ his rfl
  refine ⟨?_, execAll_updates_final his rfl⟩
  rw [List.cons_append, execAll_cons_of_next (exec_init s), execAll_updates_final his (State.withArch_arch _ _)]
  rfl

/-! ### PUSH -/

theorem isUpdate_of_mem_updatesOf {bs : List Byte} : ∀ i ∈ updatesOf bs, i.isUpdate = true := by
  fun_induction updatesOf bs with
  | case1 b0 b1 b2 b3 bs ih => exact List.forall_mem_cons.mpr ⟨rfl, ih⟩
  | case2 | case3 | case4 => exact List.forall_mem_singleton.mpr rfl
  | case5 => exact nofun

theorem updatesOf_flatMap_bytes (bs : List Byte) : (updatesOf bs).flatMap Instr.bytes = bs := by
  fun_induction updatesOf bs with
  | case1 b0 b1 b2 b3 bs ih => rw [List.flatMap_cons, ih]; rfl
  | case2 | case3 | case4 | case5 => rfl

theorem updatesOf_length (bs : List Byte) : (updatesOf bs).length = (bs.length + 3) / 4 := by
  fun_induction updatesOf bs with
  | case1 b0 b1 b2 b3 bs ih =>
    simp only [List.length_cons, ih]
    omega
  | case2 | case3 | case4 | case5 => simp

/-- All UPDATEs but the last carry four bytes. -/
theorem bytes_length_of_mem_updatesOf_dropLast {bs : List Byte} :
    ∀ i ∈ (updatesOf bs).dropLast, i.bytes.length = 4 := by
  fun_induction updatesOf bs with
  | case1 b0 b1 b2 b3 bs ih =>
    cases hrest : updatesOf bs with
    | nil => exact nofun
    | cons j js =>
      rw [hrest] at ih
      exact List.forall_mem_cons.mpr ⟨rfl, ih⟩
  | case2 | case3 | case4 | case5 => exact nofun

/-- Settles O51: an empty PUSH is its one UPDATE, and any other is `updatesOf`. -/
theorem pushCarriesItsBytes : Obligations.PushCarriesItsBytes := by
  intro bs
  cases bs with
  | nil => exact ⟨List.forall_mem_singleton.mpr rfl, rfl, rfl, nofun, fun _ => rfl⟩
  | cons b bs =>
    refine ⟨isUpdate_of_mem_updatesOf, updatesOf_flatMap_bytes _, ?_, bytes_length_of_mem_updatesOf_dropLast, nofun⟩
    rw [pushInstrs, updatesOf_length, List.length_cons]
    omega

end Sys2Proof.Machine
end

section
/-! PROOFS. Runs of clock cycles (70_reset_and_hazards.md): a run refines the transaction-level run of its events, and the
open latencies of 00_scope.md R8 are runs of waiting cycles. -/

namespace Sys2Proof.Machine

/-! ### A run of cycles is a run of its events -/

theorem runEvents_append (a : Arch) (es fs : List Event) : runEvents a (es ++ fs) = runEvents (runEvents a es) fs :=
  List.foldl_append

theorem readyAfter_append (r : Bool) (cs ds : List Cycle) :
    readyAfter r (cs ++ ds) = readyAfter (readyAfter r cs) ds := by
  induction cs generalizing r with
  | nil => rfl
  | cons c cs ih => exact ih _

theorem eventsOf_append (r : Bool) (cs ds : List Cycle) :
    eventsOf r (cs ++ ds) = eventsOf r cs ++ eventsOf (readyAfter r cs) ds := by
  induction cs generalizing r with
  | nil => rfl
  | cons c cs ih => rw [List.cons_append, eventsOf, ih, eventsOf, List.append_assoc, readyAfter]

/-- Running the first cycles of a schedule applies their events in order. -/
theorem run_schedule_append {s : State} {pre post : List Cycle} (hs : s.schedule = pre ++ post) :
    ∃ t : State, Host.Core.run Sys2Proof.core pre.length s = .next t ∧
      t.arch = runEvents s.arch (eventsOf s.cmdReady pre) ∧ t.cmdReady = readyAfter s.cmdReady pre ∧
      t.schedule = post := by
  induction pre generalizing s with
  | nil => exact ⟨s, rfl, rfl, rfl, hs⟩
  | cons c pre ih =>
    obtain ⟨t, hrun, harch, hready, hpost⟩ := ih (s := s.afterCycle c (pre ++ post)) rfl
    refine ⟨t, (run_succ_of_step _ (step_of_schedule hs)).trans hrun, ?_, hready, hpost⟩
    rw [harch, eventsOf, runEvents_append]
    rfl

/-- Settles O47: nothing of the schedule is left over. -/
theorem cycleRunsAreTransactionRuns : Obligations.CycleRunsAreTransactionRuns := fun s =>
  run_schedule_append (List.append_nil s.schedule).symm

/-- Settles O41: the cycle after `pre` samples the tuple that `pre` leaves. -/
theorem readsObserveExactlyTheCommandsBefore : Obligations.ReadsObserveExactlyTheCommandsBefore := by
  intro s pre post c a hs hrst hrd hready
  obtain ⟨t, hrun, harch, hready', hpost⟩ := run_schedule_append hs
  refine ⟨_, (run_add_of_run _ 1 hrun).trans (run_succ_of_step 0 (step_of_schedule hpost)), ?_⟩
  rw [← harch]
  exact State.rdDataAfter_of_valid hrd (State.readValid_of_ready (hready'.trans hready) hrst)

/-! ### Waiting -/

theorem waitCycles_length (n : Nat) : (waitCycles n).length = n := by
  cases n <;> simp [waitCycles]

/-- Cycles that neither reset nor raise `cmd_ready` leave a busy core busy, without an event. -/
theorem replicate_busy_quiet (n : Nat) :
    readyAfter false (List.replicate n Cycle.busy) = false ∧ eventsOf false (List.replicate n Cycle.busy) = [] := by
  induction n with
  | zero => exact ⟨rfl, rfl⟩
  | succ n ih => exact ih

/-- After its waiting cycles, if it has any, a core is ready, without an event. -/
theorem waitCycles_ready (n : Nat) :
    readyAfter (n == 0) (waitCycles n) = true ∧ eventsOf (n == 0) (waitCycles n) = [] := by
  cases n with
  | zero => exact ⟨rfl, rfl⟩
  | succ n =>
    obtain ⟨hready, hevents⟩ := replicate_busy_quiet n
    change readyAfter false (List.replicate n Cycle.busy ++ [Cycle.idle]) = true ∧
      eventsOf false (List.replicate n Cycle.busy ++ [Cycle.idle]) = []
    rw [readyAfter_append, eventsOf_append, hready, hevents]
    exact ⟨rfl, rfl⟩

/-- The first `k` waiting cycles, before the last, are busy ones. -/
theorem waitCycles_eq_busy_append {k n : Nat} (hk : k < n) :
    ∃ rest, waitCycles n = List.replicate k Cycle.busy ++ rest := by
  obtain ⟨m, rfl⟩ : ∃ m, n = k + m + 1 := ⟨n - k - 1, by omega⟩
  exact ⟨List.replicate m Cycle.busy ++ [Cycle.idle], by
    rw [waitCycles, List.replicate_add, List.append_assoc]⟩

/-- A cycle that is followed by `n` waiting cycles keeps `cmd_ready` low for exactly these, with the tuple its event
leaves (log 4). -/
theorem run_cycle_and_wait {s : State} {c : Cycle} {n : Nat} {cs : List Cycle}
    (hs : s.schedule = c :: waitCycles n ++ cs) (hc : c.readyAfter s.cmdReady = (n == 0)) :
    (∀ k, 1 ≤ k → k ≤ n → ∃ t : State, Host.Core.run Sys2Proof.core k s = .next t ∧ t.cmdReady = false ∧
      t.arch = runEvents s.arch (c.event s.cmdReady).toList) ∧
    ∃ t : State, Host.Core.run Sys2Proof.core (n + 1) s = .next t ∧ t.cmdReady = true ∧
      t.arch = runEvents s.arch (c.event s.cmdReady).toList ∧ t.schedule = cs := by
  constructor
  · intro k hk hkn
    obtain ⟨j, rfl⟩ : ∃ j, k = j + 1 := ⟨k - 1, by omega⟩
    have hlow : c.readyAfter s.cmdReady = false := hc.trans (beq_eq_false_iff_ne.mpr (by omega))
    obtain ⟨rest, hrest⟩ := waitCycles_eq_busy_append hkn
    obtain ⟨hready, hevents⟩ := replicate_busy_quiet j
    obtain ⟨t, hrun, harch, hready', -⟩ := run_schedule_append (s := s) (pre := c :: List.replicate j Cycle.busy)
      (post := rest ++ cs) (by rw [hs, hrest, List.cons_append, List.cons_append, List.append_assoc])
    rw [List.length_cons, List.length_replicate] at hrun
    rw [eventsOf, hlow, hevents, List.append_nil] at harch
    rw [readyAfter, hlow, hready] at hready'
    exact ⟨t, hrun, hready', harch⟩
  · obtain ⟨hready, hevents⟩ := waitCycles_ready n
    obtain ⟨t, hrun, harch, hready', hpost⟩ := run_schedule_append hs
    rw [List.length_cons, waitCycles_length] at hrun
    rw [eventsOf, hc, hevents, List.append_nil] at harch
    rw [readyAfter, hc, hready] at hready'
    exact ⟨t, hrun, hready', harch, hpost⟩

/-- Settles O40: the waiting cycles follow the last cycle with `rst = 1`. -/
theorem resetCompletesAfterItsCycles : Obligations.ResetCompletesAfterItsCycles := fun _ _ _ hs =>
  run_cycle_and_wait hs rfl

/-- The canonical word of an instruction is one of its port's that decodes to it. -/
theorem encode_cases (i : Instr) :
    (∃ w, encode i = .cmd w ∧ decodeCommand w = .ok i) ∨ (∃ a, encode i = .rd a ∧ decodeRead a = i) := by
  have hdec := decodeInvertsEncode i
  cases hp : encode i with
  | cmd w =>
    rw [hp] at hdec
    exact .inl ⟨w, rfl, hdec⟩
  | rd a =>
    rw [hp] at hdec
    exact .inr ⟨a, rfl, Except.ok.inj hdec⟩

/-- A command's canonical word is one of the command port. -/
theorem encode_command {i : Instr} (h : i.isRead = false) : ∃ w, encode i = .cmd w ∧ decodeCommand w = .ok i := by
  obtain hw | ⟨a, -, rfl⟩ := encode_cases i
  · exact hw
  · cases (decodeRead_isRead a).symm.trans h

/-- Every command takes a cycle (R233, R238). -/
theorem one_le_timingCycles {T : Config.Timing} (hT : T.Legal) (a : Arch) {i : Instr} (hi : i.isRead = false) :
    1 ≤ timingCycles T a i := by
  obtain ⟨hinit, hupdate, hfinal, -⟩ := hT
  cases i with
  | init => exact hinit
  | updateN0 | updateN1 | updateN2 | updateN3 | updateN4 => exact hupdate _ _
  | final => exact hfinal _
  | rdStatus | rdDigest0 | rdDigest1 | rdDigest2 | rdDigest3 | rdLenLo | rdLenHi | rdRsvd7 => cases hi

/-- Settles O39: the waiting cycles follow the accepting one, and the command port carried the command. -/
theorem commandsCompleteAfterTheirCycles : Obligations.CommandsCompleteAfterTheirCycles := by
  intro T s i cs hT hi hready hs
  obtain ⟨w, hw, hdec⟩ := encode_command hi
  have hpos := one_le_timingCycles hT s.arch hi
  obtain ⟨hevent, hfall⟩ := Cycle.event_accepted (c := cycleOf (.cmd w)) rfl rfl
  rw [commandCycles, hw] at hs
  have hlow : (cycleOf (.cmd w)).readyAfter s.cmdReady = (timingCycles T s.arch i == 0) := by
    rw [hready, hfall]
    exact (beq_eq_false_iff_ne.mpr (by omega)).symm
  obtain ⟨hbusy, t, hrun, hready', harch, hpost⟩ := run_cycle_and_wait hs hlow
  rw [hready, hevent] at harch
  refine ⟨hpos, fun k hk hkn => ?_, t, _, (execWord_of_ok hdec s).symm.trans (execWord_eq_withArch w s), hrun, hready',
    harch, hpost⟩
  obtain ⟨u, hu, hlow, -⟩ := hbusy k hk hkn
  exact ⟨u, hu, hlow⟩

/-! ### Driving instructions over the port -/

/-- The events of a port word that is presented once with `cmd_ready = 1`. -/
def eventsOfWord : PortWord → List Event
  | .cmd w => [.accepted w]
  | .rd _ => []

/-- Driving a word, whatever its wait, makes its event and ends ready. -/
theorem driveWord_ready (wait : Nat) (p : PortWord) :
    readyAfter true (driveWord wait p) = true ∧ eventsOf true (driveWord wait p) = eventsOfWord p := by
  cases p with
  | cmd w =>
    obtain ⟨hready, hevents⟩ := waitCycles_ready (wait + 1)
    exact ⟨hready, congrArg (Event.accepted w :: ·) hevents⟩
  | rd a => exact ⟨rfl, rfl⟩

theorem driveWords_ready (waits : Nat → Nat) (ps : List PortWord) :
    readyAfter true (driveWords waits ps) = true ∧ eventsOf true (driveWords waits ps) = ps.flatMap eventsOfWord := by
  induction ps generalizing waits with
  | nil => exact ⟨rfl, rfl⟩
  | cons p ps ih =>
    obtain ⟨hready, hevents⟩ := driveWord_ready (waits 0) p
    obtain ⟨hready', hevents'⟩ := ih fun k => waits (k + 1)
    rw [driveWords, readyAfter_append, eventsOf_append, hready, hevents, hready', hevents', List.flatMap_cons]
    exact ⟨rfl, rfl⟩

/-- An instruction does to the tuple what its canonical word does. -/
theorem exec_arch {i : Instr} {s t : State} (h : exec i s = .next t) :
    t.arch = runEvents s.arch (eventsOfWord (encode i)) := by
  obtain ⟨w, hp, hw⟩ | ⟨a, hp, rfl⟩ := encode_cases i <;> rw [hp]
  · obtain rfl := Host.Outcome.next.inj ((execWord_eq_withArch w s).symm.trans ((execWord_of_ok hw s).trans h))
    rfl
  · obtain rfl := Host.Outcome.next.inj ((exec_decodeRead a s).symm.trans h)
    exact State.sample_arch _ _

theorem execAll_arch {is : List Instr} {s t : State} (h : execAll is s = .next t) :
    t.arch = runEvents s.arch ((is.map encode).flatMap eventsOfWord) := by
  induction is generalizing s with
  | nil =>
    obtain rfl := Host.Outcome.next.inj h
    rfl
  | cons i is ih =>
    obtain ⟨u, hu, hrest⟩ := andThen_eq_next h
    rw [ih hrest, exec_arch hu, List.map_cons, List.flatMap_cons, runEvents_append]

/-- A host that drives instructions over the port, with any waits, ends ready and with the tuple of executing them. -/
theorem run_driveWords {is : List Instr} {waits : Nat → Nat} {s u : State} (hready : s.cmdReady = true)
    (hs : s.schedule = driveWords waits (is.map encode)) (hu : execAll is s = .next u) :
    ∃ t : State, Host.Core.run Sys2Proof.core s.schedule.length s = .next t ∧ t.cmdReady = true ∧ t.arch = u.arch := by
  obtain ⟨t, hrun, harch, hready', -⟩ := cycleRunsAreTransactionRuns s
  obtain ⟨hend, hevents⟩ := driveWords_ready waits (is.map encode)
  rw [hready, hs, hevents, ← execAll_arch hu] at harch
  rw [hready, hs, hend] at hready'
  exact ⟨t, hrun, hready', harch⟩

/-- The expansion of HASH (R80). -/
theorem expand_hash {bs : List Nat} {ws : List PortWord} (h : AsmOp.expand (.hash bs) = some ws) :
    ws = (hashInstrs (bytesOfNats bs)).map encode := by
  unfold AsmOp.expand at h
  split at h
  · exact (Option.some.inj h).symm
  · cases h

/-- Settles O50: HASH drives INIT, the UPDATEs of PUSH and FINAL. -/
theorem hashProgramEndsInTheDigest : Obligations.HashProgramEndsInTheDigest := by
  intro bs ws waits s hws hready hs
  obtain rfl := expand_hash hws
  obtain ⟨hupdates, hbytes, -⟩ := pushCarriesItsBytes (bytesOfNats bs)
  obtain ⟨hhash, -⟩ := hashOfAMessageIsItsMd5 _ s _ hupdates rfl
  obtain ⟨t, hrun, hready', harch⟩ := run_driveWords hready hs hhash
  rw [hbytes] at harch
  exact ⟨t, hrun, hready', by rw [harch], by rw [harch], by rw [harch]; rfl⟩

end Sys2Proof.Machine
end

section
/-! PROOFS. The words of the core in Nat arithmetic and bit by bit: byte views, rotation, the four Boolean functions, the
round schedule and the datapath (00_scope.md section 5, 41_compression.md), and STATUS and LEN on the read port
(42_readport.md section 2). -/

namespace Sys2Proof.Machine

/-! ### Bytes of a word -/

/-- Byte `j` of a word, by division. -/
theorem wordByte_toNat (w : Word) (j : Nat) : (wordByte w j).toNat = w.toNat / 2 ^ (8 * j) % 2 ^ 8 := by
  rw [wordByte, extractLsb'_eq_ofNat_div, BitVec.toNat_ofNat]

theorem wordByte_le32 (b0 b1 b2 b3 : Byte) :
    wordByte (le32 b0 b1 b2 b3) 0 = b0 ∧ wordByte (le32 b0 b1 b2 b3) 1 = b1 ∧
      wordByte (le32 b0 b1 b2 b3) 2 = b2 ∧ wordByte (le32 b0 b1 b2 b3) 3 = b3 := by
  simp only [← BitVec.toNat_inj, wordByte_toNat, le32_toNat]
  omega

/-- A word is its bytes put together. -/
theorem le32_wordBytes (w : Word) : le32 (wordByte w 0) (wordByte w 1) (wordByte w 2) (wordByte w 3) = w := by
  rw [← BitVec.toNat_inj, le32_toNat]
  simp only [wordByte_toNat]
  omega

/-- Settles O32. -/
theorem wordBytesAreInverse : Obligations.WordBytesAreInverse := by
  constructor
  · intro b0 b1 b2 b3
    obtain ⟨h0, h1, h2, h3⟩ := wordByte_le32 b0 b1 b2 b3
    rw [le32bytes, h0, h1, h2, h3]
  · intro w b0 b1 b2 b3 h
    injection h with h0 h
    injection h with h1 h
    injection h with h2 h
    injection h with h3 h
    rw [← h0, ← h1, ← h2, ← h3, le32_wordBytes]

/-! ### Rotation and Boolean functions -/

/-- The two shifted halves in Nat arithmetic. -/
theorem rotl32_toNat (x : Word) (s : Nat) :
    (rotl32 x s).toNat = (x.toNat * 2 ^ s % 2 ^ 32) ||| (x.toNat / 2 ^ (32 - s)) := by
  rw [rotl32, BitVec.toNat_or, BitVec.toNat_shiftLeft, BitVec.toNat_ushiftRight, Nat.shiftLeft_eq,
    Nat.shiftRight_eq_div_pow]

/-- Bit `j` moves up by `s`, or around when that passes bit 31. -/
theorem rotl32_getLsbD {s : Nat} (h1 : 1 ≤ s) (h31 : s ≤ 31) (x : Word) {j : Nat} (hj : j < 32) :
    (rotl32 x s).getLsbD ((j + s) % 32) = x.getLsbD j := by
  rw [rotl32, BitVec.getLsbD_or, BitVec.getLsbD_shiftLeft, BitVec.getLsbD_ushiftRight]
  by_cases hwrap : j + s < 32
  · rw [Nat.mod_eq_of_lt hwrap]
    have hhigh : x.getLsbD (32 - s + (j + s)) = false := BitVec.getLsbD_of_ge _ _ (by omega)
    simp [hhigh, hwrap]
  · have hmod : (j + s) % 32 = j + s - 32 := by omega
    have hback : 32 - s + (j + s - 32) = j := by omega
    have hlow : j + s - 32 < s := by omega
    simp [hmod, hback, hlow]

/-- Settles O26. -/
theorem rotationIsTheArithmeticOne : Obligations.RotationIsTheArithmeticOne := fun x s h1 h31 =>
  ⟨rotl32_toNat x s, fun _ => rotl32_getLsbD h1 h31 x⟩

/-- Settles O27: each function's bit is one of the operands' bits, and these have eight values. -/
theorem booleanFunctionsBitByBit : Obligations.BooleanFunctionsBitByBit := by
  intro x y z k hk
  simp only [funF, funG, funH, funI, BitVec.getLsbD_or, BitVec.getLsbD_and, BitVec.getLsbD_xor, BitVec.getLsbD_not, hk,
    decide_true, Bool.true_and]
  generalize x.getLsbD k = xk, y.getLsbD k = yk, z.getLsbD k = zk
  revert xk yk zk
  decide

/-! ### Rounds -/

/-- Settles O28, by evaluating the tables. -/
theorem scheduleOfTheRounds : Obligations.ScheduleOfTheRounds := by
  unfold Obligations.ScheduleOfTheRounds
  decide

/-- Settles O31, by evaluating the rounds. -/
theorem compressionOfTheAbcBlock : Obligations.CompressionOfTheAbcBlock := by
  unfold Obligations.CompressionOfTheAbcBlock
  decide +kernel

/-- A datapath that is done keeps its result. -/
theorem DatapathPhase.clocks_done (k : Nat) (st : HashWords) (m : List Word) (n : Nat) (r : HashWords) :
    DatapathPhase.clocks k st m n (.done r) = .done r := by
  induction n with
  | zero => rfl
  | succ n ih => exact ih

/-- A clock that ends before round 64 performs its `k` rounds. -/
theorem Datapath.clock_of_lt {k : Nat} {p : Datapath} (st : HashWords) (m : List Word) (h : p.counter.val + k < 64) :
    p.clock k st m = .busy ⟨rounds m p.counter.val k p.work, ⟨p.counter.val + k, h⟩⟩ :=
  dif_pos h

/-- A clock that reaches past round 63 performs the rounds that are left, and the feed-forward. -/
theorem Datapath.clock_of_ge {k : Nat} {p : Datapath} (st : HashWords) (m : List Word) (h : ¬p.counter.val + k < 64) :
    p.clock k st m = .done (feedForward st (rounds m p.counter.val (64 - p.counter.val) p.work)) :=
  dif_neg h

theorem DatapathPhase.clocks_succ_busy (k : Nat) (st : HashWords) (m : List Word) (n : Nat) (p : Datapath) :
    DatapathPhase.clocks k st m (n + 1) (.busy p) = DatapathPhase.clocks k st m n (p.clock k st m) := rfl

/-- While rounds remain after `n` clocks, the datapath is busy with the next of them. -/
theorem DatapathPhase.clocks_of_lt {k n : Nat} (st : HashWords) (m : List Word) (p : Datapath)
    (h : p.counter.val + n * k < 64) :
    DatapathPhase.clocks k st m n (.busy p) =
      .busy ⟨rounds m p.counter.val (n * k) p.work, ⟨p.counter.val + n * k, h⟩⟩ := by
  induction n generalizing p with
  | zero => simp [DatapathPhase.clocks, rounds]
  | succ n ih =>
    have hk : (n + 1) * k = k + n * k := by rw [Nat.succ_mul, Nat.add_comm]
    have hlt : p.counter.val + k + n * k < 64 := by omega
    rw [DatapathPhase.clocks_succ_busy, Datapath.clock_of_lt st m (by omega), ih _ hlt]
    simp only [hk, rounds_add, Nat.add_assoc]

/-- Once `n` clocks reach past round 63, the datapath is done with all rounds and the feed-forward. -/
theorem DatapathPhase.clocks_of_ge {k n : Nat} (st : HashWords) (m : List Word) (p : Datapath)
    (h : 64 ≤ p.counter.val + n * k) :
    DatapathPhase.clocks k st m n (.busy p) =
      .done (feedForward st (rounds m p.counter.val (64 - p.counter.val) p.work)) := by
  induction n generalizing p with
  | zero => exact absurd p.counter.isLt (by omega)
  | succ n ih =>
    rw [DatapathPhase.clocks_succ_busy]
    by_cases hlt : p.counter.val + k < 64
    · have hge : 64 ≤ p.counter.val + k + n * k := by
        rw [Nat.succ_mul] at h
        omega
      have hrest : 64 - p.counter.val = k + (64 - (p.counter.val + k)) := by omega
      rw [Datapath.clock_of_lt st m hlt, ih _ hge, hrest, rounds_add]
    · rw [Datapath.clock_of_ge st m hlt, DatapathPhase.clocks_done]

/-- Settles O30, from the start of a block, where the counter is 0. -/
theorem roundsPerCycleIsUnobservable : Obligations.RoundsPerCycleIsUnobservable := by
  intro T n st blk _
  have hzero : (Datapath.start st).counter.val + n * T.roundsPerCycle = n * T.roundsPerCycle := Nat.zero_add _
  exact ⟨fun h => ⟨_, DatapathPhase.clocks_of_lt st _ _ (hzero.trans_lt h), hzero, rfl⟩,
    fun h => DatapathPhase.clocks_of_ge st _ _ (h.trans_eq hzero.symm)⟩

/-! ### STATUS and LEN -/

/-- STATUS in Nat arithmetic (R181). -/
theorem Arch.status_toNat (a : Arch) : a.status.toNat =
    a.pend.length % 64 * 16 + a.ecode.bits.toNat * 4 + a.err.toNat * 2 + a.done.toNat := by
  simp only [Arch.status, toNat_append_eq_mul_add, Arch.pcount, BitVec.toNat_ofBool, BitVec.toNat_ofNat]
  omega

/-- STATUS of fewer than 64 pending bytes, written out. -/
theorem Arch.status_eq_ofNat {a : Arch} (h : a.pend.length < 64) : a.status =
    BitVec.ofNat 32 (a.pend.length * 16 + a.ecode.bits.toNat * 4 + a.err.toNat * 2 + a.done.toNat) := by
  rw [← Nat.mod_eq_of_lt h, ← a.status_toNat, BitVec.ofNat_toNat, BitVec.setWidth_eq]

/-- Settles O17. -/
theorem statusReadPacksCountAndFlags : Obligations.StatusReadPacksCountAndFlags := by
  refine ⟨fun s hready hlt => ?_, fun a => ?_, rfl⟩
  · rw [← Arch.status_eq_ofNat hlt]
    exact exec_decodeRead_of_ready 0 hready
  · have hcode := a.ecode.bits.isLt
    have herr := a.err.toNat_lt
    have hdone := a.done.toNat_lt
    rw [a.status_toNat]
    omega

/-- The flags under the invariants: with ERR = 0 no code, with codes 1 and 2 phase DONE. -/
theorem Arch.Inv.flags_mem {a : Arch} (h : a.Inv) :
    a.ecode.bits.toNat * 4 + a.err.toNat * 2 + a.done.toNat ∈ [0b0000, 0b0001, 0b0111, 0b1011, 0b1110, 0b1111] := by
  cases he : a.err with
  | false =>
    rw [h.ecode_err.mpr he]
    cases a.done <;> decide
  | true =>
    cases hc : a.ecode with
    | none => cases (h.ecode_err.mp hc).symm.trans he
    | updateAfterFinal =>
      rw [h.ecode_done (.inl hc)]
      decide
    | finalAfterFinal =>
      rw [h.ecode_done (.inr hc)]
      decide
    | illegalCmd => cases a.done <;> decide

/-- Settles O18: the flags fill bits 3:0, and PCOUNT the rest. -/
theorem statusTakesItsLegalValuesOnly : Obligations.StatusTakesItsLegalValuesOnly := by
  intro a h
  have hflags := h.flags_mem
  have hlt := h.pend_lt
  have hbound : ∀ n ∈ [0b0000, 0b0001, 0b0111, 0b1011, 0b1110, 0b1111], n < 16 := by decide
  have hlow := hbound _ hflags
  have hmod : a.status.toNat % 16 = a.ecode.bits.toNat * 4 + a.err.toNat * 2 + a.done.toNat := by
    rw [a.status_toNat]
    omega
  have hdiv : a.status.toNat / 16 = a.pend.length := by
    rw [a.status_toNat]
    omega
  rw [hmod, hdiv]
  exact ⟨hflags, fun hd => congrArg List.length (h.done_pend hd), fun _ => rfl⟩

/-- The two halves of LEN in Nat arithmetic. -/
theorem Arch.read_len_halves (a : Arch) :
    a.read 5 = BitVec.ofNat 32 (a.len.toNat % 2 ^ 32) ∧ a.read 6 = BitVec.ofNat 32 (a.len.toNat / 2 ^ 32) := by
  refine ⟨(extractLsb'_eq_ofNat_div 0 32 a.len).trans ?_, extractLsb'_eq_ofNat_div 32 32 a.len⟩
  rw [pow_zero, Nat.div_one, ← BitVec.toNat_inj, BitVec.toNat_ofNat, BitVec.toNat_ofNat, Nat.mod_mod]

/-- Settles O20: LENLO and LENHI are addresses 5 and 6. -/
theorem lengthReadsShowTheTwoHalves : Obligations.LengthReadsShowTheTwoHalves := by
  intro s hready
  obtain ⟨hlow, hhigh⟩ := s.arch.read_len_halves
  refine ⟨?_, ?_, fun h => ?_⟩
  · rw [← hlow]
    exact exec_decodeRead_of_ready 5 hready
  · rw [← hhigh]
    exact exec_decodeRead_of_ready 6 hready
  · rw [BitVec.toNat_ofNat]
    omega

/-- Settles O23. -/
theorem busyReadsAreFreeValues : Obligations.BusyReadsAreFreeValues := by
  intro a s hbusy
  rw [exec_decodeRead, State.sample_of_busy _ hbusy]
  rfl

/-- While DONE = 0 no address shows STATE. -/
theorem Arch.read_withRegs {a : Arch} (hd : a.done = false) (st : HashWords) (addr : BitVec 3) :
    (a.withRegs st).read addr = a.read addr := by
  have hd' : (a.withRegs st).done = false := hd
  simp only [Arch.read, hd, hd']
  rfl

/-- Settles O24. -/
theorem intermediateStateIsNotObservable : Obligations.IntermediateStateIsNotObservable := by
  intro a s st hd hready
  refine ⟨_, exec_decodeRead_of_ready a hready, ?_⟩
  rw [← Arch.read_withRegs hd st a]
  exact exec_decodeRead_of_ready a (s := s.withArch (s.arch.withRegs st)) hready

end Sys2Proof.Machine
end
